-- ==== Sys2Proof/Word.lean ====
section
/-! DEFINITION. The bit vectors of the block: wire byte, group, 64-bit register (00_scope.md R4, sections 4 and 6). -/

namespace Sys2Proof

/-- A wire byte, bits 7 to 0 (R4, R31). -/
abbrev Byte := BitVec 8

/-- A 7-bit group (R4, R50). -/
abbrev Group := BitVec 7

/-- A physical data register: 64 bits, of which an operation of width W uses the low W (R12, R15). -/
abbrev Word := BitVec 64

end Sys2Proof
end

