-- ==== Sys2Proof/Config.lean ====
section
/-! DEFINITION. What is fixed for the block: the two widths, the variant of the overflow test, and the free values. -/

namespace Sys2Proof

/-- The width W of an operation: 32 for VarInt, 64 for VarLong, "and there is no other width" (R4). -/
inductive Width where
  | w32
  | w64
deriving DecidableEq, Repr, Inhabited

/-- The two readings of the overflow test that the source reports (R96, U1). -/
inductive OverflowTest where
  /-- `pos >= W`. -/
  | reaches
  /-- `pos > W`. -/
  | exceeds
deriving DecidableEq, Repr

/-- The variant the block uses: `pos >= W` (R96: "This spec takes `>=`"); log entry 10. -/
def Config.overflowTest : OverflowTest := .reaches

/-! Free values (log entries 2, 6 and 16). None has a body: nothing can be proved of the value. Each is applied to the
counter `State.draws`, which every edge advances, so that no edge repeats the draw of another. -/

/-- `ENC.w` after a reset edge: unspecified (R26, U4). -/
opaque Config.freeEncWidth : Nat → Width

/-- `ENC.pat` after a reset edge: unspecified (R26, U4). -/
opaque Config.freeEncPat : Nat → Word

/-- `DEC.w` after a reset edge: unspecified (R26, U4). -/
opaque Config.freeDecWidth : Nat → Width

/-- `DEC.len` after a reset edge: unspecified (R26, U4). -/
opaque Config.freeDecLen : Nat → Nat

/-- `DEC.acc` after a reset edge: unspecified (R26, U4). -/
opaque Config.freeDecAcc : Nat → Word

/-- `DEC.pos` after a reset edge: unspecified (R26, U4). -/
opaque Config.freeDecPos : Nat → BitVec 7

/-- `DEC.cursor` after a reset edge: unspecified (R26, U4). -/
opaque Config.freeDecCursor : Nat → BitVec 4

/-- What HOST's read port answers for an index of the slice that HOST never supplied: "bytes that are not there come
from whatever HOST's read port returns" (R164 H1). -/
opaque Config.freeReadByte : Nat → Byte

/-- `enc_out_byte` when `enc_out_valid` = 0: "any value" (R120, U5). -/
opaque Config.freeOutByte : Nat → Byte

/-- `dec_rd_addr` when `dec_rd_en` = 0: "any value" (R120, U5). -/
opaque Config.freeReadAddr : Nat → BitVec 4

end Sys2Proof
end

