-- ==== Sys2Proof/Syntax.lean ====
section
/-! DEFINITION. The six things the block executes (30_encoding.md R62, opcode_table.json) and the two formats they
are encoded in (R50, R61). -/

namespace Sys2Proof

/-- One constructor per row of the opcode table (R62). The operands of the four commands are port values, not bits of
the code (R61), so only the wire bytes carry a field. -/
inductive Instr where
  /-- Encode a VarInt (R74). -/
  | enc32
  /-- Encode a VarLong (R75). -/
  | enc64
  /-- Decode a VarInt (R98). -/
  | dec32
  /-- Decode a VarLong (R99). -/
  | dec64
  /-- A wire byte with its continuation bit set, carrying group `g` (R51, R95). -/
  | cont (g : Group)
  /-- A wire byte with its continuation bit clear, carrying group `g` (R51, R94). -/
  | final (g : Group)
deriving DecidableEq, Repr

/-- A code of the block in its format. The formats do not share a code space: a command reaches the block on the start
ports, a wire byte on the read port (R61, R125). -/
inductive Code where
  /-- Format CMD: `cmd[1:0]` = `{u, w}` (R61). -/
  | cmd (c : BitVec 2)
  /-- Format WIRE: one byte (R50). -/
  | wire (b : Byte)
deriving DecidableEq, Repr

/-- The unit a command code names in its bit `u`: 0 is ENC, 1 is DEC (R61). -/
inductive Target where
  | enc
  | dec
deriving DecidableEq, Repr

end Sys2Proof
end

