-- ==== Sys2Proof/Machine/Operands.lean ====
section
/-! DEFINITION. Widths, fields of a wire byte and of a command code, value assembly and the sign: the operand forms of
the block (00_scope.md sections 6 and 7, R54, R55, R61, R93, R127). -/

namespace Sys2Proof.Machine

/-- W, the number of bits (R4). -/
def widthBits : Width → Nat
  | .w32 => 32
  | .w64 => 64

/-- G(W), the largest number of groups of an encoded integer (R4). -/
def maxGroups : Width → Nat
  | .w32 => 5
  | .w64 => 10

/-- The width that a width select or the bit `w` of a command names: 0 is 32, 1 is 64 (R13, R61). -/
def widthOfBit : Bool → Width
  | false => .w32
  | true => .w64

/-- The 1-bit code of a width (R13). -/
def widthBit : Width → Bool
  | .w32 => false
  | .w64 => true

/-- `trunc_W`, kept in a 64-bit register with the bits above W zero (00_scope.md section 6, R25 g). -/
def truncW (w : Width) (x : Word) : Word :=
  match w with
  | .w32 => (x.setWidth 32).setWidth 64
  | .w64 => x

/-- `s_W(p)`: the signed reading of the low W bits (R21, R55, R100). -/
def signedW (w : Width) (p : Word) : Int :=
  match w with
  | .w32 => (p.setWidth 32).toInt
  | .w64 => p.toInt

/-- `u_W(v)`: the unsigned W-bit pattern of a signed integer (R55, R76 a). -/
def patternW (w : Width) (v : Int) : Word :=
  match w with
  | .w32 => (BitVec.ofInt 32 v).setWidth 64
  | .w64 => BitVec.ofInt 64 v

/-- `dec_value`, the 64-bit port view of the accumulator: for W = 32 the low half sign-extended (R127). -/
def portValue (w : Width) (acc : Word) : Word :=
  match w with
  | .w32 => (acc.setWidth 32).signExtend 64
  | .w64 => acc

/-- `group(p) = p[6:0]` (00_scope.md section 7). -/
def group (p : Word) : Group := p.setWidth 7

/-- `pack(c, g) = {c, g}`: the continuation bit over the group (00_scope.md section 7, R50). -/
def pack (c : Bool) (g : Group) : Byte := BitVec.ofBool c ++ g

/-- `cont(b) = b[7]` (00_scope.md section 7, R31). -/
def contBit (b : Byte) : Bool := b[7]

/-- The group field of a wire byte, `b[6:0]` (R50). -/
def byteGroup (b : Byte) : Group := b.setWidth 7

/-- The merge of R93: `trunc_W( acc | (zext(g) << pos) )`. The shift is done in 64 bits, which drops only bits at or above
bit 64, and `trunc_W` drops those in any case. -/
def mergeGroup (w : Width) (acc : Word) (g : Group) (pos : Nat) : Word :=
  truncW w (acc ||| (g.setWidth 64 <<< pos))

/-- One emit step's shift: the W-bit register shifted right by 7, logically (R73, R76 b). -/
def shiftOut (w : Width) (pat : Word) : Word := truncW w pat >>> 7

/-- The bit `u` of a command code (R61). -/
def targetBit : Target → Bool
  | .enc => false
  | .dec => true

/-- The command code `{u, w}` (R61). -/
def cmdCode (t : Target) (w : Bool) : BitVec 2 := BitVec.ofBool (targetBit t) ++ BitVec.ofBool w

end Sys2Proof.Machine
end

