-- ==== Sys2Proof/WellFormed.lean ====
section
/-! DEFINITION. Well-formed terms. The types of `Instr` already exclude every ill-formed single instruction; what the
spec gives a shape to is the encoded integer, a sequence of wire bytes (30_encoding.md R52, R56). -/

namespace Sys2Proof

/-- Every term of `Instr` is well formed: the group field is 7 bits by its type, all four commands and all 256 bytes are
used and none is reserved (R51, R61, 93_implementation_defined.md section 3). -/
def Instr.wf : Instr → Bool
  | .enc32 | .enc64 | .dec32 | .dec64 => true
  | .cont _ | .final _ => true

/-- Zero or more CONT bytes followed by exactly one FINAL byte (R52). -/
def wireShape : List Instr → Bool
  | [] => false
  | [.final _] => true
  | .cont _ :: rest => wireShape rest
  | .final _ :: _ :: _ => false
  | .enc32 :: _ | .enc64 :: _ | .dec32 :: _ | .dec64 :: _ => false

/-- One encoded integer of width W: the shape of R52 and at most G(W) bytes. -/
def encodedIntegerWf (w : Width) (is : List Instr) : Bool :=
  wireShape is && decide (is.length ≤ Machine.maxGroups w)

/-- A FINAL byte with a group other than 0. -/
def finalNonzero : Instr → Bool
  | .final g => decide (g ≠ 0)
  | .enc32 | .enc64 | .dec32 | .dec64 | .cont _ => false

/-- The last byte is FINAL with a group other than 0. -/
def lastNonzero : List Instr → Bool
  | [] => false
  | [i] => finalNonzero i
  | _ :: j :: rest => lastNonzero (j :: rest)

/-- The canonical form of R56: an encoded integer whose FINAL byte has a group other than 0, unless it is a single byte. -/
def canonicalWf (w : Width) (is : List Instr) : Bool :=
  encodedIntegerWf w is && (decide (is.length = 1) || lastNonzero is)

end Sys2Proof
end

