-- ==== Sys2Proof/Decode.lean ====
section
/-! DEFINITION. The decoders of the two formats, total on their bits, the encoder written from the same tables
(30_encoding.md R50, R51, R61, R62), and the reading of an opcode-table word. -/

namespace Sys2Proof

/-- Why a decode of raw input gives no instruction. The block itself has no reserved code
(93_implementation_defined.md section 3); these are about input that is no code at all. -/
inductive DecodeReject where
  /-- The byte list is empty. -/
  | noByte
  /-- The number does not fit the width of the format. -/
  | wordTooWide
deriving DecidableEq, Repr

/-- A decoder of commands needs the two bits of `cmd` (R62): `u` names the unit, `w` the width (R61). -/
def decodeCmd (code : BitVec 2) : Instr :=
  match code[1], code[0] with
  | false, false => .enc32
  | false, true => .enc64
  | true, false => .dec32
  | true, true => .dec64

/-- A decoder of wire bytes needs bit 7 of the byte (R62): set is CONT, clear is FINAL (R51). -/
def decodeWire (b : Byte) : Instr :=
  match Machine.contBit b with
  | true => .cont (Machine.byteGroup b)
  | false => .final (Machine.byteGroup b)

/-- The instruction a code stands for. -/
def decode : Code → Instr
  | .cmd c => decodeCmd c
  | .wire b => decodeWire b

/-- The first instruction of a list of wire bytes, and the rest of the list. -/
def decodeBytes : List Byte → Except DecodeReject (Instr × List Byte)
  | [] => .error .noByte
  | b :: rest => .ok (decodeWire b, rest)

/-- A command from a number. -/
def decodeCmdWord (w : Nat) : Except DecodeReject Instr :=
  if w < 4 then .ok (decodeCmd (BitVec.ofNat 2 w)) else .error .wordTooWide

/-- A wire byte from a number. -/
def decodeWireWord (w : Nat) : Except DecodeReject Instr :=
  if w < 256 then .ok (decodeWire (BitVec.ofNat 8 w)) else .error .wordTooWide

/-- The code of an instruction, from the tables of R61 and R51. -/
def encode : Instr → Code
  | .enc32 => .cmd 0b00
  | .enc64 => .cmd 0b01
  | .dec32 => .cmd 0b10
  | .dec64 => .cmd 0b11
  | .cont g => .wire (Machine.pack true g)
  | .final g => .wire (Machine.pack false g)

/-- The code that a word of the opcode table stands for. The table's two formats are two code spaces and a bare number
does not say which is meant: in whole bytes a command row has 8 bits like a wire row. Convention of this interface only
(DESIGN CHOICE, log entry 15): 0 to 3 are the commands, 4 to 255 the wire bytes. The block itself never asks: a command
comes on a start port and a wire byte on the read port. -/
def tableCode (nbits w : Nat) : Option Code :=
  if 8 < nbits then none
  else if w < 4 then some (.cmd (BitVec.ofNat 2 w))
  else if w < 256 ∧ nbits = 8 then some (.wire (BitVec.ofNat 8 w))
  else none

/-- The instruction the decoder reads from an opcode-table word. -/
def decodeTableWord (nbits w : Nat) : Option Instr := (tableCode nbits w).map decode

end Sys2Proof
end

