-- ==== Sys2Proof/Machine/State.lean ====
section
/-! DEFINITION. The state of the block and of HOST as far as HOST matters to a step, the reasons a step or a read can
stop, and the state right after reset (10_state.md). -/

namespace Sys2Proof.Machine

/-- `ENC.state` (R14). -/
inductive EncState where
  | idle
  | emitting
deriving DecidableEq, Repr

/-- The kind of a decode failure (R20, R140). -/
inductive FailKind where
  /-- "the byte slice ended before a terminating (non-continuation) byte was found" (R141). -/
  | incomplete
  /-- "more groups were consumed than the target width can represent" (R142). -/
  | tooLarge
deriving DecidableEq, Repr

/-- `DEC.state` together with `DEC.err`: the kind is held by `failed` alone, so that the pairs R25 (e) rules out cannot be
written (U6; log entry 9). -/
inductive DecState where
  | idle
  | reading
  | done
  | failed (kind : FailKind)
deriving DecidableEq, Repr

/-- The registers of unit ENC (R12 to R14). -/
structure Enc where
  /-- `ENC.state`. -/
  state : EncState
  /-- `ENC.w`. -/
  w : Width
  /-- `ENC.pat`, 64 bits physical. -/
  pat : Word
deriving DecidableEq, Repr

/-- The registers of unit DEC (R15 to R20). -/
structure Dec where
  /-- `DEC.state` and `DEC.err`. -/
  state : DecState
  /-- `DEC.w`. -/
  w : Width
  /-- `DEC.len`; a natural number (D13, log entry 8). -/
  len : Nat
  /-- `DEC.acc`, 64 bits physical. -/
  acc : Word
  /-- `DEC.pos`. -/
  pos : BitVec 7
  /-- `DEC.cursor`. -/
  cursor : BitVec 4
deriving DecidableEq, Repr

/-- The levels of the input ports before an edge (R120). `clk` is the step itself; `dec_rd_data` is answered from IN (R125,
log entry 5). -/
structure Pins where
  /-- `rst`. -/
  rst : Bool
  /-- `enc_start`. -/
  encStart : Bool
  /-- `enc_w64`. -/
  encW64 : Bool
  /-- `enc_value`. -/
  encValue : Word
  /-- `enc_out_ready`. -/
  encOutReady : Bool
  /-- `dec_start`. -/
  decStart : Bool
  /-- `dec_w64`. -/
  decW64 : Bool
  /-- `dec_len`. -/
  decLen : Nat
deriving DecidableEq, Repr

/-- All input ports at 0: what HOST drives when it has no move listed (DESIGN CHOICE, log entry 4). -/
def Pins.quiet : Pins :=
  { rst := false, encStart := false, encW64 := false, encValue := 0, encOutReady := false,
    decStart := false, decW64 := false, decLen := 0 }

/-- IN: the bytes HOST supplies, by index, strictly rising (R30; log entry 5). -/
abbrev Memory := List Host.Cell

/-- One entry of OUT: an emitted byte with its flag (R40). -/
structure OutByte where
  byte : Byte
  last : Bool
deriving DecidableEq, Repr

/-- What HOST does between two edges: it stores to its slice, then drives the input ports (R45, R120, R132). -/
structure HostMove where
  /-- The bytes of IN that HOST stores, in order. -/
  stores : List Host.Cell
  /-- The port levels for the edge that follows. -/
  pins : Pins
deriving DecidableEq, Repr

/-- The whole state: the ten registers of R10, the two byte spaces of R30, and HOST's moves. -/
structure State where
  /-- Unit ENC. -/
  enc : Enc
  /-- Unit DEC. -/
  dec : Dec
  /-- IN (R30). -/
  inMem : Memory
  /-- OUT: all bytes taken from the output stream so far, append-only (R40; log entry 7). -/
  outSeq : List OutByte
  /-- The model's own: the length of `outSeq` at ENC's last start step, where the OUT of that operation begins (log entry 7). -/
  outBase : Nat
  /-- The input ports before the coming edge (R120). -/
  pins : Pins
  /-- HOST's later moves, one per edge (log entry 4). -/
  script : List HostMove
  /-- The model's own: a reset edge has happened (R163, U7; log entry 12). -/
  resetSeen : Bool
  /-- The model's own: the counter free values are applied to, one more at every edge (log entry 2). -/
  draws : Nat
deriving DecidableEq, Repr

/-- Why something has no value. No STEP ever faults: a failed decode is the state Failed (R146, R147). These are raised only
by the read of an output port by a claim (Machine/Ports.lean) where R126 says that "a model gives them no value", as U3 asks.
Safe: nothing can be proved from a value the block does not promise. -/
inductive Fault where
  /-- `dec_value` or `dec_consumed` read when `dec_state` is not Done (R126, U3). Raised by `decValuePort`, `decConsumedPort`. Safe. -/
  | noDecodeResult
deriving DecidableEq, Repr

/-- Why a step has no meaning. -/
inductive Refusal where
  /-- An instruction without a meaning yet; raised by a rejected arm of `exec` only, and no arm is rejected. Safe. -/
  | notModelled (mnemonic : String)
  /-- An edge with `rst` = 0 before the first reset edge: "no rule of this spec says what the block does" (R163), "refuse:
  no rule applies until a reset edge has happened" (U7). Raised by `step`. Safe. -/
  | beforeFirstReset
deriving DecidableEq, Repr

/-- The outcome of a step of this block. -/
abbrev Result := Host.Outcome State Fault Refusal

/-- The state right after reset (R26): both units Idle, no error; the seven registers R26 leaves unspecified are at the
values log entry 1 names; OUT empty (95_test_vectors.md section 5), nothing in IN, HOST driving nothing. -/
def State.reset : State :=
  { enc := { state := .idle, w := .w32, pat := 0 },
    dec := { state := .idle, w := .w32, len := 0, acc := 0, pos := 0, cursor := 0 },
    inMem := [], outSeq := [], outBase := 0, pins := Pins.quiet, script := [], resetSeen := true, draws := 0 }

end Sys2Proof.Machine
end

