-- ==== Sys2Proof/Machine/Flags.lean ====
section
/-! DEFINITION. The values that act as flags (10_state.md R23), the tests that steer the two state machines, and the port
codes of the status fields (R24). -/

namespace Sys2Proof.Machine

/-- `more(p, W) = (p[W-1:7] != 0)`: the pattern does not fit in 7 bits (00_scope.md section 7, R72, R73). -/
def more (w : Width) (p : Word) : Bool := decide (truncW w p >>> 7 ≠ 0)

/-- The flag `last`: the inverse of the continuation bit (R23 b). -/
def lastFlag (w : Width) (p : Word) : Bool := !(more w p)

/-- The overflow test on the position after the addition of 7 (R95, R96). -/
def overflows (t : OverflowTest) (w : Width) (pos : Nat) : Bool :=
  match t with
  | .reaches => decide (widthBits w ≤ pos)
  | .exceeds => decide (widthBits w < pos)

/-- The exhaustion test `DEC.cursor >= DEC.len`, unsigned (R92, R103 e). -/
def exhausted (d : Dec) : Bool := decide (d.len ≤ d.cursor.toNat)

/-- `ENC.state` as a code: 0 Idle, 1 Emitting (R24). -/
def encStateCode : EncState → BitVec 1
  | .idle => 0
  | .emitting => 1

/-- `DEC.state` as a code: 00 Idle, 01 Reading, 10 Done, 11 Failed (R24). -/
def decStateCode : DecState → BitVec 2
  | .idle => 0b00
  | .reading => 0b01
  | .done => 0b10
  | .failed _ => 0b11

/-- `DEC.err`: `none` exactly when the state is not Failed (R20, R25 e). -/
def decErr : DecState → Option FailKind
  | .idle => none
  | .reading => none
  | .done => none
  | .failed k => some k

/-- `DEC.err` as a code: 00 None, 01 Incomplete, 10 TooLarge; 11 is never produced (R24, R140). -/
def decErrCode (d : DecState) : BitVec 2 :=
  match decErr d with
  | none => 0b00
  | some .incomplete => 0b01
  | some .tooLarge => 0b10

end Sys2Proof.Machine
end

