-- ==== Sys2Proof/Machine/Ops.lean ====
section
/-! DEFINITION. The operations the meanings share: IN, OUT, raising an exception, reset, HOST's moves, and the fetch of a
byte by DEC. -/

namespace Sys2Proof.Machine

/-- The byte of IN at an index, if HOST has supplied one (R32). -/
def Memory.read : Memory → Nat → Option Byte
  | [], _ => none
  | (k, b) :: m, a => if k = a then some b else Memory.read m a

/-- HOST stores a byte of its slice; the cells stay strictly rising (R45). -/
def Memory.write : Memory → Nat → Byte → Memory
  | [], a, b => [(a, b)]
  | (k, c) :: m, a, b =>
    if a < k then (a, b) :: (k, c) :: m
    else if a = k then (a, b) :: m
    else (k, c) :: Memory.write m a b

/-- HOST stores a list of bytes, first to last. -/
def Memory.writeAll : Memory → List Host.Cell → Memory
  | m, [] => m
  | m, (a, b) :: rest => Memory.writeAll (Memory.write m a b) rest

/-- The canonical form: strictly rising indices. An unlisted index has no value, so no entry can equal it. -/
abbrev Memory.wf (m : Memory) : Prop := (m.map Prod.fst).Pairwise (· < ·)

/-- `Emit(b, last)`: append to OUT (R40). -/
def emit (b : Byte) (last : Bool) (s : State) : State :=
  { s with outSeq := s.outSeq ++ [{ byte := b, last := last }] }

/-- The OUT of the current or last encode operation: what was emitted since its start step (R40). -/
def State.opOut (s : State) : List OutByte := s.outSeq.drop s.outBase

/-- TAKING AN EXCEPTION (R146): "`DEC.err <-` the kind, `DEC.state <- Failed`", and nothing else. The return from one is the
start step of the next decode (`decStart`, R148). -/
def raise (k : FailKind) (s : State) : State :=
  { s with dec := { s.dec with state := .failed k } }

/-- The fetch of R125: HOST answers `dec_rd_addr` = `DEC.cursor` with the byte of IN; where HOST never supplied one the byte is
a free value (R164 H1, log entry 6). A read changes nothing (R36). -/
def fetchByte (s : State) : Byte :=
  match Memory.read s.inMem s.dec.cursor.toNat with
  | some b => b
  | none => Config.freeReadByte s.draws

/-- A reset edge (R160): ENC.state and DEC.state Idle, DEC.err None, "every other element unspecified", so a free value each.
IN, OUT and HOST's moves are not the block's and stay. -/
def resetEdge (s : State) : State :=
  { s with
    enc := { state := .idle, w := Config.freeEncWidth s.draws, pat := Config.freeEncPat s.draws },
    dec :=
      { state := .idle, w := Config.freeDecWidth s.draws, len := Config.freeDecLen s.draws,
        acc := Config.freeDecAcc s.draws, pos := Config.freeDecPos s.draws, cursor := Config.freeDecCursor s.draws },
    resetSeen := true }

/-- Between this edge and the next: HOST's next move, its stores and then its port levels, all ports 0 when no move is listed
(log entry 4); and the counter of free values moves on, so that what no rule fixes may differ from edge to edge (log entry 2). -/
def nextMove (s : State) : State :=
  match s.script with
  | [] => { s with pins := Pins.quiet, draws := s.draws + 1 }
  | m :: rest =>
    { s with
      inMem := Memory.writeAll s.inMem m.stores,
      pins := m.pins,
      script := rest,
      draws := s.draws + 1 }

/-- Go on from a next state; a fault or a refusal stays. -/
def andThen (r : Result) (f : State → Result) : Result :=
  match r with
  | .next s => f s
  | .fault e => .fault e
  | .refused e => .refused e

end Sys2Proof.Machine
end

