-- ==== Sys2Proof/Machine/DecodeFamily.lean ====
section
/-! DEFINITION. The decode family (41_decode.md): the start step R91 and its two commands, the exhaustion step R92, and the
two wire byte classes R93 to R95. -/

namespace Sys2Proof.Machine

/-- Start step of DEC (R91), enabled in Idle, Done and Failed; it is also the way out of an exception (R148). A start request
in Reading is ignored (R128). -/
def decStart (w : Width) (s : State) : State :=
  match s.dec.state with
  | .reading => s
  | .idle | .done | .failed _ =>
    { s with dec := { state := .reading, w := w, len := s.pins.decLen, acc := 0, pos := 0, cursor := 0 } }

/-- DEC32 (R98): its first step, the start step with w = 0; the byte steps follow at later edges (log entry 14). -/
def execDec32 (s : State) : Result := .next (decStart .w32 s)

/-- DEC64 (R99): its first step, the start step with w = 1; the byte steps follow at later edges (log entry 14). -/
def execDec64 (s : State) : Result := .next (decStart .w64 s)

/-- Fetch and merge, the part common to both classes (R93): the cursor moves on and the group is merged. -/
def mergeStep (g : Group) (s : State) : State :=
  { s with
    dec :=
      { s.dec with
        cursor := s.dec.cursor + 1,
        acc := mergeGroup s.dec.w s.dec.acc g s.dec.pos.toNat } }

/-- After the merge of a FINAL byte (R94): Done, the position not advanced. -/
def finalTail (s : State) : State := { s with dec := { s.dec with state := .done } }

/-- The position advanced by 7 (R95). -/
def advance (s : State) : State := { s with dec := { s.dec with pos := s.dec.pos + 7 } }

/-- After the merge of a CONT byte (R95): advance, then the overflow test of R96 on the new position. -/
def contTail (s : State) : State :=
  if overflows Config.overflowTest s.dec.w (advance s).dec.pos.toNat then raise .tooLarge (advance s) else advance s

/-- A step of DEC at an edge with a byte on the read port: only in Reading is the byte looked at (R110, R120), and there the
exhaustion test comes first (R92, R145). -/
def onByte (consume : State → State) (s : State) : State :=
  match s.dec.state with
  | .reading => if exhausted s.dec then raise .incomplete s else consume s
  | .idle | .done | .failed _ => s

/-- CONT (R93 with R95). -/
def execCont (g : Group) (s : State) : Result := .next (onByte (fun t => contTail (mergeStep g t)) s)

/-- FINAL (R93 with R94). -/
def execFinal (g : Group) (s : State) : Result := .next (onByte (fun t => finalTail (mergeStep g t)) s)

end Sys2Proof.Machine
end

