-- ==== Sys2Proof/Machine/EncodeFamily.lean ====
section
/-! DEFINITION. The encode family (40_encode.md): the start step R71 and its two commands, and the emit steps R72 and R73. -/

namespace Sys2Proof.Machine

/-- Start step of ENC (R71): enabled in Idle; the value is `enc_value`, bits 31 to 0 only when W = 32. A start request to a
busy unit is ignored (R128). `outBase` marks where the OUT of this operation begins. -/
def encStart (w : Width) (s : State) : State :=
  match s.enc.state with
  | .idle =>
    { s with
      enc := { state := .emitting, w := w, pat := truncW w s.pins.encValue },
      outBase := s.outSeq.length }
  | .emitting => s

/-- ENC32 (R74): its first step, the start step with w = 0; the emit steps follow at later edges (log entry 14). -/
def execEnc32 (s : State) : Result := .next (encStart .w32 s)

/-- ENC64 (R75): its first step, the start step with w = 1; the emit steps follow at later edges (log entry 14). -/
def execEnc64 (s : State) : Result := .next (encStart .w64 s)

/-- Final emit step (R72). -/
def encEmitFinal (s : State) : State :=
  emit (pack false (group s.enc.pat)) true { s with enc := { s.enc with state := .idle } }

/-- Continuing emit step (R73). -/
def encEmitCont (s : State) : State :=
  emit (pack true (group s.enc.pat)) false { s with enc := { s.enc with pat := shiftOut s.enc.w s.enc.pat } }

/-- The emit step of a unit in Emitting: R73 or R72 according to `more`. -/
def encEmit (s : State) : State :=
  if more s.enc.w s.enc.pat then encEmitCont s else encEmitFinal s

end Sys2Proof.Machine
end

