-- ==== Sys2Proof/Machine/Dispatch.lean ====
section
/-! DEFINITION. The meaning of every instruction, one arm per row of the opcode table. -/

namespace Sys2Proof.Machine

def exec (i : Instr) (s : State) : Host.Outcome State Fault Refusal :=
  match i with
  | .enc32 => Sys2Proof.Machine.execEnc32 s
  | .enc64 => Sys2Proof.Machine.execEnc64 s
  | .dec32 => Sys2Proof.Machine.execDec32 s
  | .dec64 => Sys2Proof.Machine.execDec64 s
  | .cont g => Sys2Proof.Machine.execCont g s
  | .final g => Sys2Proof.Machine.execFinal g s

end Sys2Proof.Machine
end

