-- ==== Sys2Proof/Machine/Edge.lean ====
section
/-! DEFINITION. What each unit does at one rising edge with `rst` = 0 (42_host_interface.md R121 to R125), and where an
opcode-table word is placed so that the next edge runs it. -/

namespace Sys2Proof.Machine

/-- ENC at an edge: in Idle the command on its start port, if raised (R122, R61); in Emitting the emit step, if HOST is ready
(R123). -/
def encEdge (s : State) : Result :=
  match s.enc.state with
  | .idle => if s.pins.encStart then exec (decodeCmd (cmdCode .enc s.pins.encW64)) s else .next s
  | .emitting => if s.pins.encOutReady then .next (encEmit s) else .next s

/-- `dec_rd_en`: DEC reads a byte at this edge (R120, R125). -/
def readEnabled (d : Dec) : Bool :=
  match d.state with
  | .reading => !(exhausted d)
  | .idle | .done | .failed _ => false

/-- DEC at an edge: in Reading the byte at the cursor, or the exhaustion step when there is none (R125); otherwise the command
on its start port, if raised (R124, R61). -/
def decEdge (s : State) : Result :=
  match s.dec.state with
  | .reading =>
    if readEnabled s.dec then exec (decodeWire (fetchByte s)) s else .next (raise .incomplete s)
  | .idle | .done | .failed _ =>
    if s.pins.decStart then exec (decodeCmd (cmdCode .dec s.pins.decW64)) s else .next s

/-- Both units at one edge, each from the state before it: they share nothing (R121, R129), so the order is not visible
(log entry 3). -/
def unitsEdge (s : State) : Result := andThen (encEdge s) decEdge

/-- A unit in the middle of an operation is set idle, so that a placed instruction is the only one that runs. -/
def quiesceDec (d : Dec) : Dec :=
  match d.state with
  | .reading => { d with state := .idle }
  | .idle | .done | .failed _ => d

/-- `s` with a code placed where the coming edge takes it, and nothing else at work at that edge (log entry 15). A command:
its start port raised on a free unit, the other unit given nothing to do. A wire byte: DEC in Reading with the byte in IN at
the cursor and the bound above it. -/
def placeCode (c : Code) (s : State) : State :=
  match c with
  | .cmd code =>
    match code[1] with
    | false =>
      { s with
        resetSeen := true,
        enc := { s.enc with state := .idle },
        dec := quiesceDec s.dec,
        pins := { s.pins with rst := false, encStart := true, encW64 := code[0], decStart := false } }
    | true =>
      { s with
        resetSeen := true,
        dec := quiesceDec s.dec,
        pins :=
          { s.pins with
            rst := false, encStart := false, encOutReady := false, decStart := true, decW64 := code[0] } }
  | .wire b =>
    { s with
      resetSeen := true,
      dec := { s.dec with state := .reading, len := max s.dec.len (s.dec.cursor.toNat + 1) },
      inMem := Memory.write s.inMem s.dec.cursor.toNat b,
      pins := { s.pins with rst := false, encStart := false, encOutReady := false, decStart := false } }

end Sys2Proof.Machine
end

