-- ==== Sys2Proof/Machine/Step.lean ====
section
/-! DEFINITION. One step of the machine is one rising edge of `clk` (42_host_interface.md R121, 70_reset_and_hazards.md R160). -/

namespace Sys2Proof.Machine

/-- One rising edge, then HOST's next move. With `rst` = 1 the reset edge, "whatever the state and the other ports" (R160); with
`rst` = 0 the edge of the two units, refused before the first reset edge (R163, U7). -/
def step (s : State) : Host.Outcome State Fault Refusal :=
  if s.pins.rst then .next (nextMove (resetEdge s))
  else if s.resetSeen then andThen (unitsEdge s) (fun t => .next (nextMove t))
  else .refused .beforeFirstReset

/-- The state whose next step runs the instruction of an opcode-table word. -/
def State.withFetchWord (s : State) (nbits w : Nat) : State :=
  match tableCode nbits w with
  | some c => placeCode c s
  | none => s

end Sys2Proof.Machine
end

