-- ==== Sys2Proof/Machine/Ports.lean ====
section
/-! DEFINITION. The output ports as functions of the state (42_host_interface.md R120, R123, R125 to R127) and the result of a
decode (R131). Where R120 defines no value for a port of the handshakes it shows a free one (U5); a read of `dec_value` or
`dec_consumed` outside Done, which "a model gives no value" (R126), faults (U3). Log entry 16. -/

namespace Sys2Proof.Machine

/-- `enc_busy` (R120). -/
def encBusyPort (s : State) : Bool := decide (s.enc.state = .emitting)

/-- `enc_out_valid`, equal to `enc_busy` (R120). -/
def encOutValidPort (s : State) : Bool := encBusyPort s

/-- `enc_out_byte` (R123); a free value when `enc_out_valid` = 0 (U5). -/
def encOutBytePort (s : State) : Byte :=
  match s.enc.state with
  | .emitting => pack (more s.enc.w s.enc.pat) (group s.enc.pat)
  | .idle => Config.freeOutByte s.draws

/-- `enc_out_last` (R123); when `enc_out_valid` = 0 all that is known of it is that it is "always the inverse of
`enc_out_byte[7]`" (R120). -/
def encOutLastPort (s : State) : Bool :=
  match s.enc.state with
  | .emitting => lastFlag s.enc.w s.enc.pat
  | .idle => !(contBit (Config.freeOutByte s.draws))

/-- `dec_rd_en` (R120). -/
def decRdEnPort (s : State) : Bool := readEnabled s.dec

/-- `dec_rd_addr` (R120); a free value when `dec_rd_en` = 0 (U5). -/
def decRdAddrPort (s : State) : BitVec 4 :=
  if readEnabled s.dec then s.dec.cursor else Config.freeReadAddr s.draws

/-- `dec_state` (R120, R24). -/
def decStatePort (s : State) : BitVec 2 := decStateCode s.dec.state

/-- `dec_err` (R120, R24). -/
def decErrPort (s : State) : BitVec 2 := decErrCode s.dec.state

/-- `dec_value` (R126, R127). -/
def decValuePort (s : State) : Except Fault Word :=
  match s.dec.state with
  | .done => .ok (portValue s.dec.w s.dec.acc)
  | .idle | .reading | .failed _ => .error .noDecodeResult

/-- `dec_consumed` (R101, R126). -/
def decConsumedPort (s : State) : Except Fault (BitVec 4) :=
  match s.dec.state with
  | .done => .ok s.dec.cursor
  | .idle | .reading | .failed _ => .error .noDecodeResult

end Sys2Proof.Machine
end

