-- ==== Sys2Proof/Machine/Reference.lean ====
section
/-! DEFINITION. The functions a whole operation computes: `enc` (40_encode.md R70) and `dec` (41_decode.md R90), and the result
of a decode as HOST gets it (R131). The step rules and these functions are two descriptions of the block; that they agree is
stated, not assumed. -/

namespace Sys2Proof.Machine

/-- The loop of R70 on the pattern. The first argument bounds the turns; G(W) of them are enough (R77). -/
def encLoop (w : Width) : Nat → Word → List Byte
  | 0, _ => []
  | n + 1, p =>
    if more w p then pack true (group p) :: encLoop w n (p >>> 7) else [pack false (group p)]

/-- `enc(W, v)` (R70). -/
def enc (w : Width) (v : Int) : List Byte := encLoop w (maxGroups w) (patternW w v)

/-- The result of a decode: exactly one of Done with value and count, Failed(Incomplete), Failed(TooLarge) (R131). -/
inductive DecResult where
  | done (value : Int) (consumed : Nat)
  | failed (kind : FailKind)
deriving DecidableEq, Repr

/-- The loop of R90 on the bytes of the slice that are left, with the overflow test as a parameter (R97, U1). -/
def decLoop (t : OverflowTest) (w : Width) (acc : Word) (pos cur : Nat) : List Byte → DecResult
  | [] => .failed .incomplete
  | b :: rest =>
    if contBit b then
      if overflows t w (pos + 7) then .failed .tooLarge
      else decLoop t w (mergeGroup w acc (byteGroup b) pos) (pos + 7) (cur + 1) rest
    else .done (signedW w (mergeGroup w acc (byteGroup b) pos)) (cur + 1)

/-- `dec(W, IN, len)` (R90) with the slice as the list of its `len` bytes, under a given overflow test. -/
def decWith (t : OverflowTest) (w : Width) (bytes : List Byte) : DecResult := decLoop t w 0 0 0 bytes

/-- `dec(W, IN, len)` (R90). -/
def dec (w : Width) (bytes : List Byte) : DecResult := decWith Config.overflowTest w bytes

/-- The result the block shows, when a decode has ended (R126, R131). -/
def State.decResult (s : State) : Option DecResult :=
  match s.dec.state with
  | .done => some (.done (signedW s.dec.w s.dec.acc) s.dec.cursor.toNat)
  | .failed k => some (.failed k)
  | .idle | .reading => none

/-- A byte of an encoding as OUT records it: `last` is the inverse of its continuation bit (R23 b). -/
def asOut (b : Byte) : OutByte := { byte := b, last := !(contBit b) }

/-- `g0 | g1 << 7 | g2 << 14 | ...` as a number, before `trunc_W`: the groups do not overlap, so OR is addition (R54). -/
def assemble : List Byte → Nat
  | [] => 0
  | b :: rest => (byteGroup b).toNat + 2 ^ 7 * assemble rest

end Sys2Proof.Machine
end

