-- ==== Sys2Proof/Safety.lean ====
section
/-! DEFINITION. What counts as a legal state (10_state.md R25) and as a HOST that keeps its duties (42_host_interface.md R130). -/

namespace Sys2Proof.Machine

/-- R25 (a) to (d) and (g) for DEC, with the two facts (a) and (d) rest on: the cursor never passes the bound, and the
accumulator of an ended operation stays within W bits. R25 (e) holds by the type of `DecState`. -/
def Dec.Inv (d : Dec) : Prop :=
  match d.state with
  | .idle => True
  | .reading =>
    d.pos.toNat = 7 * d.cursor.toNat ∧ d.pos.toNat < widthBits d.w ∧ d.acc.toNat < 2 ^ d.pos.toNat ∧
      d.cursor.toNat ≤ d.len
  | .done =>
    d.pos.toNat = 7 * (d.cursor.toNat - 1) ∧ 1 ≤ d.cursor.toNat ∧ d.cursor.toNat ≤ maxGroups d.w ∧
      d.acc.toNat < 2 ^ widthBits d.w ∧ d.cursor.toNat ≤ d.len
  | .failed .tooLarge =>
    d.cursor.toNat = maxGroups d.w ∧ d.pos.toNat = 7 * maxGroups d.w ∧ d.acc.toNat < 2 ^ widthBits d.w ∧
      d.cursor.toNat ≤ d.len
  | .failed .incomplete =>
    d.cursor.toNat = d.len ∧ d.len ≤ maxGroups d.w - 1 ∧ d.pos.toNat = 7 * d.cursor.toNat ∧
      d.acc.toNat < 2 ^ widthBits d.w

/-- R25 (f) and (g) for ENC: in Emitting, after k emit steps of the running operation, `ENC.pat` < 2^(W - 7k) and k is at most
G(W) - 1; k is the number of bytes of this operation in OUT, and each of them is a CONT byte not marked last. -/
def State.EncInv (s : State) : Prop :=
  s.outBase ≤ s.outSeq.length ∧
    match s.enc.state with
    | .idle => True
    | .emitting =>
      s.opOut.length ≤ maxGroups s.enc.w - 1 ∧
        s.enc.pat.toNat < 2 ^ (widthBits s.enc.w - 7 * s.opOut.length) ∧
        ∀ o ∈ s.opOut, contBit o.byte = true ∧ o.last = false

/-- A legal state: the invariants of R25 and the canonical form of IN. -/
def State.Inv (s : State) : Prop := s.dec.Inv ∧ s.EncInv ∧ Memory.wf s.inMem

/-- An edge at which the step rules apply: a reset has happened and `rst` = 0 (R121, R163). -/
def State.live (s : State) : Prop := s.resetSeen = true ∧ s.pins.rst = false

/-- Nothing of ENC, of OUT or of the mark in OUT differs: what an instruction of DEC leaves alone. -/
def sameEncSide (s t : State) : Prop := t.enc = s.enc ∧ t.outSeq = s.outSeq ∧ t.outBase = s.outBase

/-- Nothing of HOST differs, every byte of IN included, and the counter of free values has not moved: what every instruction leaves
alone. -/
def sameHostSide (s t : State) : Prop :=
  (∀ a, Memory.read t.inMem a = Memory.read s.inMem a) ∧ t.pins = s.pins ∧ t.script = s.script ∧
    t.resetSeen = s.resetSeen ∧ t.draws = s.draws

/-- HOST raises no reset in these moves. -/
def noReset (ms : List HostMove) : Prop := ∀ m ∈ ms, m.pins.rst = false

/-- HOST leaves its slice unchanged in these moves (R43, R130 a). -/
def slicesKept (ms : List HostMove) : Prop := ∀ m ∈ ms, m.stores = []

/-- At how many of the edges that follow these moves HOST is ready to take a byte (R123, R166). -/
def readyEdges (ms : List HostMove) : Nat := ms.countP (fun m => m.pins.encOutReady)

/-- HOST has supplied the bytes `bs` as the slice: index i answers with byte i (R30, R125). -/
def holdsSlice (m : Memory) (bs : List Byte) : Prop := ∀ i, i < bs.length → Memory.read m i = bs[i]?

/-- The bytes on DEC's read port at those of the next n edges at which `dec_rd_en` = 1, in order (R33, R125). -/
def readsAlong : Nat → State → List Byte
  | 0, _ => []
  | n + 1, s =>
    (if decRdEnPort s then [fetchByte s] else []) ++
      match step s with
      | .next t => readsAlong n t
      | .fault _ | .refused _ => []

/-- How many steps DEC makes after its start step on a slice that HOST keeps (R109): the bytes consumed by a Done, G(W) for TooLarge, and
all bytes with one exhaustion step after them for Incomplete. -/
def decSteps (w : Width) (bs : List Byte) : Nat :=
  match dec w bs with
  | .done _ n => n
  | .failed .tooLarge => maxGroups w
  | .failed .incomplete => bs.length + 1

end Sys2Proof.Machine
end

