-- ==== Sys2Proof/Certificates/Slice0/Obligations.lean ====
section
/-! DEFINITION. The statements for the provers, file by file of spec/. A clause that rests on a choice of the model names its
log entry. -/

open Sys2Proof Sys2Proof.Machine

/-! ## Encodings (30_encoding.md) -/

/-- Every instruction decodes from its own code, and every code of either format is the code of what it decodes to: no bit is
dropped and no code is shared (R51, R61, R62). -/
def Obligations.DecodeEncodeRoundTrip : Prop :=
  (∀ i : Instr, i.wf = true → decode (encode i) = i) ∧ (∀ c : Code, encode (decode c) = c)

/-- Words written out from the tables of R61 and R51. -/
def Obligations.WrittenWordsDecode : Prop :=
  decodeCmd 0b00 = .enc32 ∧ decodeCmd 0b01 = .enc64 ∧ decodeCmd 0b10 = .dec32 ∧ decodeCmd 0b11 = .dec64 ∧
    decodeWire 0b11011101 = .cont 0b1011101 ∧ decodeWire 0b10000000 = .cont 0 ∧ decodeWire 0b11111111 = .cont 0b1111111 ∧
    decodeWire 0b00000001 = .final 1 ∧ decodeWire 0b00000000 = .final 0 ∧ decodeWire 0b01111111 = .final 0b1111111

/-- CONT is 0x80 to 0xFF and FINAL is 0x00 to 0x7F, with the low seven bits as the group (R51). -/
def Obligations.WireClassIsTopBit : Prop :=
  ∀ b : Byte,
    (128 ≤ b.toNat → decodeWire b = .cont (BitVec.ofNat 7 (b.toNat - 128))) ∧
      (b.toNat < 128 → decodeWire b = .final (BitVec.ofNat 7 b.toNat))

/-! ## The function of an encode (40_encode.md) -/

/-- The length law (R77): 1 for the pattern 0, else the bit length over 7 rounded up; the smallest n >= 1 with pattern < 2^(7n); 1 to G(W). -/
def Obligations.EncodeLengthLaw : Prop :=
  ∀ (w : Width) (v : Int),
    (enc w v).length = (if (patternW w v).toNat = 0 then 1 else (Nat.log2 (patternW w v).toNat + 1 + 6) / 7) ∧
      (patternW w v).toNat < 2 ^ (7 * (enc w v).length) ∧
      (∀ n, 1 ≤ n → (patternW w v).toNat < 2 ^ (7 * n) → (enc w v).length ≤ n) ∧
      1 ≤ (enc w v).length ∧ (enc w v).length ≤ maxGroups w

/-- Byte k carries pattern bits 7k+6 to 7k, and its continuation bit is 1 exactly when a byte follows (R81). -/
def Obligations.EncodeBytewise : Prop :=
  ∀ (w : Width) (v : Int) (k : Nat) (h : k < (enc w v).length),
    (byteGroup (enc w v)[k]).toNat = (patternW w v).toNat / 2 ^ (7 * k) % 2 ^ 7 ∧
      (contBit (enc w v)[k] = true ↔ k < (enc w v).length - 1)

/-- The canonical encoding (R56): it stands for the value's pattern, that is it decodes, whole, to the pattern read as a signed number; the FINAL byte has a group
other than 0 unless the value is 0, whose encoding is the single byte 00; and no byte sequence that decodes to the same value is shorter. -/
def Obligations.EncodeMinimal : Prop :=
  ∀ (w : Width) (v : Int),
    dec w (enc w v) = .done (signedW w (patternW w v)) (enc w v).length ∧
      ((patternW w v).toNat ≠ 0 → ∃ f, (enc w v).getLast? = some f ∧ contBit f = false ∧ byteGroup f ≠ 0) ∧
      ((patternW w v).toNat = 0 → enc w v = [0x00]) ∧
      (∀ bs n, dec w bs = .done (signedW w (patternW w v)) n → (enc w v).length ≤ n)

/-- What ENC produces has the shape of R52 and the canonical form of R56. -/
def Obligations.EncodeIsCanonical : Prop :=
  ∀ (w : Width) (v : Int), canonicalWf w ((enc w v).map decodeWire) = true

/-- Every negative value takes the full length; the last byte is 08 to 0F for W = 32 and 01 for W = 64 (R80). -/
def Obligations.NegativeTakesFullLength : Prop :=
  (∀ v : Int, -(2 ^ 31) ≤ v → v < 0 →
      (enc .w32 v).length = 5 ∧ ∃ b, (enc .w32 v).getLast? = some b ∧ 0x08 ≤ b.toNat ∧ b.toNat ≤ 0x0F) ∧
    (∀ v : Int, -(2 ^ 63) ≤ v → v < 0 → (enc .w64 v).length = 10 ∧ (enc .w64 v).getLast? = some 0x01)

/-- Across widths: a value from 0 to 2^31 - 1 has the same bytes at both widths, a negative one has 5 and 10 (R60, last sentence). -/
def Obligations.EncodeAcrossWidths : Prop :=
  (∀ v : Int, 0 ≤ v → v < 2 ^ 31 → enc .w32 v = enc .w64 v) ∧
    (∀ v : Int, -(2 ^ 31) ≤ v → v < 0 → (enc .w32 v).length = 5 ∧ (enc .w64 v).length = 10 ∧ enc .w32 v ≠ enc .w64 v)

/-! ## The function of a decode (41_decode.md) -/

/-- Round trip (R105): a value in range comes back with its length, whatever bytes follow. In the other direction the encoding of a decoded value is
its canonical form, which is the sequence that was decoded exactly when that one was canonical (R56) and not over-wide (its assembled groups fit W bits). -/
def Obligations.RoundTrip : Prop :=
  ∀ w : Width,
    (∀ (v : Int) (rest : List Byte), -(2 ^ (widthBits w - 1)) ≤ v → v < 2 ^ (widthBits w - 1) →
        dec w (enc w v ++ rest) = .done v (enc w v).length) ∧
      (∀ (bs : List Byte) (v : Int) (n : Nat), dec w bs = .done v n →
        canonicalWf w ((enc w v).map decodeWire) = true ∧ dec w (enc w v) = .done v (enc w v).length ∧
          (enc w v = bs.take n ↔
            canonicalWf w ((bs.take n).map decodeWire) = true ∧ assemble (bs.take n) < 2 ^ widthBits w))

/-- Value assembly (R54, R55, R57, R58, R34): k < G(W) CONT bytes and a FINAL byte give Done with `s_W` of the assembled groups truncated
to W bits and k + 1 bytes consumed, whatever follows. -/
def Obligations.DecodeAssemblesGroups : Prop :=
  ∀ (w : Width) (cs : List Byte) (f : Byte) (rest : List Byte),
    (∀ c ∈ cs, contBit c = true) → contBit f = false → cs.length < maxGroups w →
      dec w (cs ++ f :: rest) =
        .done (signedW w (BitVec.ofNat 64 (assemble (cs ++ [f]) % 2 ^ widthBits w))) (cs.length + 1)

/-- Bound rejection (R107): TooLarge exactly when the first G(W) bytes are all CONT, whatever follows; and on the block it is raised by the step that
consumes the G(W)-th byte, after which no byte is read. -/
def Obligations.TooLargeExactlyOnFullContinuation : Prop :=
  (∀ (w : Width) (bs : List Byte),
      dec w bs = .failed .tooLarge ↔ maxGroups w ≤ bs.length ∧ ∀ b ∈ bs.take (maxGroups w), contBit b = true) ∧
    (∀ s t : State, s.Inv → step s = .next t → s.dec.state = .reading → t.dec.state = .failed .tooLarge →
      s.dec.cursor.toNat + 1 = maxGroups s.dec.w ∧ decRdEnPort s = true ∧ decRdEnPort t = false)

/-- Incomplete exactly when the slice has fewer than G(W) bytes, all CONT, the empty slice included (R59 a, R141). -/
def Obligations.IncompleteExactlyOnShortContinuation : Prop :=
  ∀ (w : Width) (bs : List Byte),
    dec w bs = .failed .incomplete ↔ bs.length < maxGroups w ∧ ∀ b ∈ bs, contBit b = true

/-- Incomplete detection (R106): every proper prefix of an encoding, the empty one included, gives Incomplete, never TooLarge. -/
def Obligations.ProperPrefixIsIncomplete : Prop :=
  ∀ (w : Width) (v : Int) (k : Nat), k < (enc w v).length → dec w ((enc w v).take k) = .failed .incomplete

/-- The two readings of the overflow test give the same result for every input (R97). -/
def Obligations.OverflowVariantsAgree : Prop :=
  (∀ (w : Width) (bs : List Byte), decWith .reaches w bs = decWith .exceeds w bs) ∧
    (∀ s : State, s.Inv → s.dec.state = .reading →
      overflows .reaches s.dec.w (s.dec.pos + 7).toNat = overflows .exceeds s.dec.w (s.dec.pos + 7).toNat)

/-- A stream of integers (R39, R111): the consumed count of one decode is where the next integer begins. -/
def Obligations.ConsumedCountWalksStream : Prop :=
  ∀ (w : Width) (u v : Int) (rest : List Byte),
    -(2 ^ (widthBits w - 1)) ≤ u → u < 2 ^ (widthBits w - 1) → -(2 ^ (widthBits w - 1)) ≤ v → v < 2 ^ (widthBits w - 1) →
      ∃ n, dec w (enc w u ++ (enc w v ++ rest)) = .done u n ∧
        dec w ((enc w u ++ (enc w v ++ rest)).drop n) = .done v (enc w v).length

/-! ## The instructions (completion, result, frame) -/

/-- Every instruction answers a next state in every state, never a fault or a refusal: the block raises nothing that stops it (R78, R143, R147). That this holds also
where the instruction has none of its own effect (a busy unit, a byte outside Reading or at the bound) is the model's choice (log entry 13); what it answers there
is `InstructionsTurnedAway`. -/
def Obligations.EveryInstructionAnswersNext : Prop :=
  ∀ (i : Instr) (s : State), ∃ t, exec i s = .next t

/-- ENC32 and ENC64 in Idle: the start step (R71), with its frame. `outBase` is the model's own mark (log entry 7). -/
def Obligations.EncodeStartLoadsPattern : Prop :=
  ∀ s : State, s.enc.state = .idle →
    (∃ t, exec .enc32 s = .next t ∧ t.enc.state = .emitting ∧ t.enc.w = .w32 ∧
        t.enc.pat.toNat = s.pins.encValue.toNat % 2 ^ 32 ∧
        t.outSeq = s.outSeq ∧ t.outBase = s.outSeq.length ∧ t.dec = s.dec ∧ sameHostSide s t) ∧
      (∃ t, exec .enc64 s = .next t ∧ t.enc.state = .emitting ∧ t.enc.w = .w64 ∧ t.enc.pat = s.pins.encValue ∧
        t.outSeq = s.outSeq ∧ t.outBase = s.outSeq.length ∧ t.dec = s.dec ∧ sameHostSide s t)

/-- DEC32 and DEC64 in Idle, Done or Failed: the start step (R91), which is also the way out of Failed (R148), with its frame. -/
def Obligations.DecodeStartClearsDecoder : Prop :=
  ∀ s : State, s.dec.state ≠ .reading →
    (∃ t, exec .dec32 s = .next t ∧
        t.dec = { state := .reading, w := .w32, len := s.pins.decLen, acc := 0, pos := 0, cursor := 0 } ∧
        sameEncSide s t ∧ sameHostSide s t) ∧
      (∃ t, exec .dec64 s = .next t ∧
        t.dec = { state := .reading, w := .w64, len := s.pins.decLen, acc := 0, pos := 0, cursor := 0 } ∧
        sameEncSide s t ∧ sameHostSide s t)

/-- CONT in Reading below the bound (R93, R95, R96): cursor + 1, the group ORed in at the position and truncated to W bits, position + 7, then
Failed(TooLarge) if the new position is W or more, else Reading; with its frame. -/
def Obligations.ContMergesAndAdvances : Prop :=
  ∀ (g : Group) (s : State), s.dec.state = .reading → s.dec.cursor.toNat < s.dec.len →
    ∃ t, exec (.cont g) s = .next t ∧
      t.dec.cursor = s.dec.cursor + 1 ∧
      t.dec.acc.toNat = (s.dec.acc.toNat ||| g.toNat <<< s.dec.pos.toNat) % 2 ^ widthBits s.dec.w ∧
      t.dec.pos = s.dec.pos + 7 ∧
      (widthBits s.dec.w ≤ (s.dec.pos + 7).toNat → t.dec.state = .failed .tooLarge) ∧
      ((s.dec.pos + 7).toNat < widthBits s.dec.w → t.dec.state = .reading) ∧
      t.dec.w = s.dec.w ∧ t.dec.len = s.dec.len ∧ sameEncSide s t ∧ sameHostSide s t

/-- FINAL in Reading below the bound (R93, R94): cursor + 1, the merge, Done with the signed accumulator and the count, the position not advanced; with its frame.
The truncation to W bits is the spec's decision D2. -/
def Obligations.FinalMergesAndEnds : Prop :=
  ∀ (g : Group) (s : State), s.dec.state = .reading → s.dec.cursor.toNat < s.dec.len →
    ∃ t, exec (.final g) s = .next t ∧
      t.dec.cursor = s.dec.cursor + 1 ∧
      t.dec.acc.toNat = (s.dec.acc.toNat ||| g.toNat <<< s.dec.pos.toNat) % 2 ^ widthBits s.dec.w ∧
      t.dec.state = .done ∧ t.dec.pos = s.dec.pos ∧
      t.decResult = some (.done (signedW s.dec.w t.dec.acc) t.dec.cursor.toNat) ∧
      t.dec.w = s.dec.w ∧ t.dec.len = s.dec.len ∧ sameEncSide s t ∧ sameHostSide s t

/-- Where an instruction has none of its own effect: a start to a busy unit changes nothing (R128); a byte outside Reading is not looked at (R110);
a byte presented in Reading with no byte left in the slice is not read, and the step raises Incomplete instead (R92, R125), changing `DEC.state` and `DEC.err`
alone (R146). That `exec` of a wire byte makes the exhaustion step is the model's choice (log entry 13). -/
def Obligations.InstructionsTurnedAway : Prop :=
  ∀ s : State,
    (s.enc.state = .emitting → exec .enc32 s = .next s ∧ exec .enc64 s = .next s) ∧
      (s.dec.state = .reading → exec .dec32 s = .next s ∧ exec .dec64 s = .next s) ∧
      (∀ g, s.dec.state ≠ .reading → exec (.cont g) s = .next s ∧ exec (.final g) s = .next s) ∧
      (∀ g, s.dec.state = .reading → s.dec.len ≤ s.dec.cursor.toNat →
        exec (.cont g) s = .next { s with dec := { s.dec with state := .failed .incomplete } } ∧
          exec (.final g) s = .next { s with dec := { s.dec with state := .failed .incomplete } })

/-- The frame of the encode commands in every state: DEC, OUT and HOST are untouched, whatever the state (R10, R71). -/
def Obligations.EncodeCommandsFrame : Prop :=
  ∀ (i : Instr) (s t : State), i = .enc32 ∨ i = .enc64 → exec i s = .next t →
    t.dec = s.dec ∧ t.outSeq = s.outSeq ∧ sameHostSide s t

/-- The frame of the decode commands and of both wire byte classes in every state: ENC, OUT and HOST are untouched; a wire byte leaves
`DEC.w` and `DEC.len` as they were latched, and a FINAL byte leaves `DEC.pos` (R10, R18, R94). -/
def Obligations.DecoderInstructionsFrame : Prop :=
  ∀ (i : Instr) (s t : State), i ≠ .enc32 → i ≠ .enc64 → exec i s = .next t →
    sameEncSide s t ∧ sameHostSide s t ∧
      (∀ g, i = .cont g ∨ i = .final g → t.dec.w = s.dec.w ∧ t.dec.len = s.dec.len) ∧
      (∀ g, i = .final g → t.dec.pos = s.dec.pos)

/-- What a decode start leaves does not depend on anything before it but the ports (R108): two states with the same ports give the same decoder. -/
def Obligations.DecodeStartForgetsThePast : Prop :=
  ∀ (s s' t t' : State), s.dec.state ≠ .reading → s'.dec.state ≠ .reading → s.pins = s'.pins →
    ((exec .dec32 s = .next t ∧ exec .dec32 s' = .next t') ∨ (exec .dec64 s = .next t ∧ exec .dec64 s' = .next t')) →
      t.dec = t'.dec

/-! ## The step: one rising edge -/

/-- A step runs the decoded instruction: a byte of the slice below the bound, with ENC given nothing to do, runs as the instruction it decodes to, the byte being HOST's
where HOST has supplied one and a free value where it has not (log entry 6); a command on
a start port of a free unit, the other unit given nothing to do, runs as the instruction its code decodes to; two commands at one edge both run. `nextMove` is
HOST's move after the edge (log entry 4). -/
def Obligations.StepRunsDecodedInstruction : Prop :=
  ∀ s : State, s.live →
    (∀ b, Memory.read s.inMem s.dec.cursor.toNat = some b → fetchByte s = b) ∧
      (s.dec.state = .reading → s.dec.cursor.toNat < s.dec.len →
        ((s.enc.state = .idle ∧ s.pins.encStart = false) ∨ (s.enc.state = .emitting ∧ s.pins.encOutReady = false)) →
        step s = andThen (exec (decodeWire (fetchByte s)) s) (fun t => .next (nextMove t))) ∧
      (s.enc.state = .idle → s.pins.encStart = true → s.dec.state ≠ .reading → s.pins.decStart = false →
        step s = andThen (exec (decodeCmd (cmdCode .enc s.pins.encW64)) s) (fun t => .next (nextMove t))) ∧
      (s.dec.state ≠ .reading → s.pins.decStart = true →
        ((s.enc.state = .idle ∧ s.pins.encStart = false) ∨ (s.enc.state = .emitting ∧ s.pins.encOutReady = false)) →
        step s = andThen (exec (decodeCmd (cmdCode .dec s.pins.decW64)) s) (fun t => .next (nextMove t))) ∧
      (s.enc.state = .idle → s.pins.encStart = true → s.dec.state ≠ .reading → s.pins.decStart = true →
        step s =
          andThen (exec (decodeCmd (cmdCode .enc s.pins.encW64)) s)
            (fun t => andThen (exec (decodeCmd (cmdCode .dec s.pins.decW64)) t) (fun u => .next (nextMove u))))

/-- A word placed by `withFetchWord` is the instruction the next step runs, and the only one (log entry 15). -/
def Obligations.PlacedWordRunsNext : Prop :=
  ∀ (s : State) (nbits w : Nat) (i : Instr), decodeTableWord nbits w = some i →
    step (s.withFetchWord nbits w) = andThen (exec i (s.withFetchWord nbits w)) (fun t => .next (nextMove t))

/-- Once a reset has happened, or is happening, an edge always has a next state (R109, R147, R166); before the first reset an edge with `rst` = 0 is refused,
as U7 asks (R163; log entry 12). -/
def Obligations.StepIsTotalAfterReset : Prop :=
  ∀ s : State,
    (s.resetSeen = true ∨ s.pins.rst = true → ∃ t, step s = .next t) ∧
      (s.resetSeen = false → s.pins.rst = false → step s = .refused .beforeFirstReset)

/-- Final emit step (R72): in Emitting with the W-bit pattern below 0x80 and HOST ready, a FINAL byte marked last goes to OUT, ENC goes Idle, `ENC.pat` and
`ENC.w` stay. -/
def Obligations.FinalEmitStep : Prop :=
  ∀ s : State, s.live → s.enc.state = .emitting → s.pins.encOutReady = true →
    s.enc.pat.toNat % 2 ^ widthBits s.enc.w < 0x80 →
      ∃ t, step s = .next t ∧ t.enc = { s.enc with state := .idle } ∧ t.outBase = s.outBase ∧
        t.outSeq = s.outSeq ++ [{ byte := BitVec.ofNat 8 (s.enc.pat.toNat % 0x80), last := true }]

/-- Continuing emit step (R73): in Emitting with the W-bit pattern 0x80 or more and HOST ready, a CONT byte not marked last goes to OUT, the W-bit pattern is
shifted right by 7 with zeros entering, ENC stays Emitting. -/
def Obligations.ContinuingEmitStep : Prop :=
  ∀ s : State, s.live → s.enc.state = .emitting → s.pins.encOutReady = true →
    0x80 ≤ s.enc.pat.toNat % 2 ^ widthBits s.enc.w →
      ∃ t, step s = .next t ∧ t.enc.state = .emitting ∧ t.enc.w = s.enc.w ∧ t.outBase = s.outBase ∧
        t.enc.pat.toNat = s.enc.pat.toNat % 2 ^ widthBits s.enc.w / 2 ^ 7 ∧
        t.outSeq = s.outSeq ++ [{ byte := BitVec.ofNat 8 (0x80 + s.enc.pat.toNat % 0x80), last := false }]

/-- The output handshake (R123): in Emitting a byte is presented, with `last` the inverse of its bit 7; a ready HOST gets exactly it appended to OUT; with HOST
not ready nothing of ENC or OUT changes and the same byte stays presented. -/
def Obligations.OutputHandshake : Prop :=
  ∀ s : State, s.live → s.enc.state = .emitting →
    ∃ b t, encOutValidPort s = true ∧ encOutBytePort s = b ∧ encOutLastPort s = !(contBit b) ∧ step s = .next t ∧
      (s.pins.encOutReady = true → t.outSeq = s.outSeq ++ [asOut b]) ∧
      (s.pins.encOutReady = false →
        t.enc = s.enc ∧ t.outSeq = s.outSeq ∧ t.outBase = s.outBase ∧ encOutBytePort t = b ∧
          encOutLastPort t = encOutLastPort s)

/-- OUT is append-only and grows by at most one byte an edge, only from Emitting with HOST ready (R40, R121, R123). -/
def Obligations.OutputIsAppendOnly : Prop :=
  ∀ s t : State, step s = .next t →
    t.outSeq = s.outSeq ∨
      (s.enc.state = .emitting ∧ s.pins.encOutReady = true ∧ s.pins.rst = false ∧
        ∃ o, t.outSeq = s.outSeq ++ [o])

/-- The transitions of DEC (R104): the table, row by row, at an edge with `rst` = 0. -/
def Obligations.DecoderTransitions : Prop :=
  ∀ s : State, s.live →
    ∃ t, step s = .next t ∧
      (s.dec.state ≠ .reading → s.pins.decStart = true →
        t.dec =
          { state := .reading, w := widthOfBit s.pins.decW64, len := s.pins.decLen, acc := 0, pos := 0, cursor := 0 }) ∧
      (s.dec.state ≠ .reading → s.pins.decStart = false → t.dec = s.dec) ∧
      (s.dec.state = .reading → s.dec.len ≤ s.dec.cursor.toNat → t.dec = { s.dec with state := .failed .incomplete }) ∧
      (s.dec.state = .reading → s.dec.cursor.toNat < s.dec.len → contBit (fetchByte s) = false → t.dec.state = .done) ∧
      (s.dec.state = .reading → s.dec.cursor.toNat < s.dec.len → contBit (fetchByte s) = true →
        (s.dec.pos + 7).toNat < widthBits s.dec.w →
          t.dec.state = .reading ∧ t.dec.cursor = s.dec.cursor + 1 ∧ t.dec.pos = s.dec.pos + 7) ∧
      (s.dec.state = .reading → s.dec.cursor.toNat < s.dec.len → contBit (fetchByte s) = true →
        widthBits s.dec.w ≤ (s.dec.pos + 7).toNat → t.dec.state = .failed .tooLarge)

/-- Taking an exception, seen from the whole machine (R140 to R142, R145, R146, R147): a step from a legal state that ends in Failed either began there and changed nothing of
DEC, or began in Reading and found the slice exhausted, then with only `DEC.state` and `DEC.err` written and no byte read, or consumed there the G(W)-th byte, a CONT
byte, then with that byte merged and the position advanced; which of the two holds is fixed by the bytes and the length. Nothing else fails. -/
def Obligations.FailuresArise : Prop :=
  ∀ (s t : State) (k : FailKind), s.Inv → step s = .next t → t.dec.state = .failed k →
    (s.dec.state = .failed k ∧ t.dec = s.dec) ∨
      (s.dec.state = .reading ∧ k = .incomplete ∧ s.dec.cursor.toNat = s.dec.len ∧ s.dec.len < maxGroups s.dec.w ∧
        t.dec = { s.dec with state := .failed .incomplete } ∧ decRdEnPort s = false) ∨
      (s.dec.state = .reading ∧ k = .tooLarge ∧ s.dec.cursor.toNat < s.dec.len ∧
        s.dec.cursor.toNat + 1 = maxGroups s.dec.w ∧ contBit (fetchByte s) = true ∧
        t.dec.cursor.toNat = maxGroups s.dec.w ∧ t.dec.pos.toNat = 7 * maxGroups s.dec.w ∧
        t.dec.acc.toNat =
          (s.dec.acc.toNat ||| (byteGroup (fetchByte s)).toNat <<< s.dec.pos.toNat) % 2 ^ widthBits s.dec.w ∧
        t.dec.w = s.dec.w ∧ t.dec.len = s.dec.len)

/-- A reset edge (R160, R161, R26): whatever the state and the other ports, both units are Idle and no error is shown; OUT keeps what HOST has taken; the
block accepts starts at the first edge with `rst` = 0. -/
def Obligations.ResetEdgeIdlesBothUnits : Prop :=
  ∀ s : State, s.pins.rst = true →
    ∃ t, step s = .next t ∧ t.enc.state = .idle ∧ t.dec.state = .idle ∧ decErr t.dec.state = none ∧ t.resetSeen = true ∧
      t.outSeq = s.outSeq ∧
      (t.pins.rst = false → t.pins.encStart = true → t.pins.decStart = true →
        ∃ u, step t = .next u ∧ u.enc.state = .emitting ∧ u.dec.state = .reading)

/-- The state right after reset (R26): both units Idle, no error. -/
def Obligations.ResetState : Prop :=
  State.reset.enc.state = .idle ∧ State.reset.dec.state = .idle ∧ decErr State.reset.dec.state = none ∧
    encBusyPort State.reset = false ∧ decStatePort State.reset = 0b00 ∧ decErrPort State.reset = 0b00

/-- A start request to a busy unit has no effect on the edge (R128), and the ports latched at a start have none until the next one (R46). -/
def Obligations.BusyUnitsIgnoreTheirPorts : Prop :=
  ∀ (s : State) (start w64 : Bool) (value : Word) (len : Nat), s.live →
    (s.enc.state = .emitting →
        step { s with pins := { s.pins with encStart := start, encW64 := w64, encValue := value } } = step s) ∧
      (s.dec.state = .reading →
        step { s with pins := { s.pins with decStart := start, decW64 := w64, decLen := len } } = step s)

/-- ENC's next registers and what it adds to OUT depend on ENC, OUT and ENC's ports alone, not on DEC, IN or DEC's ports (R10, R129, R153). -/
def Obligations.EncoderIgnoresDecoder : Prop :=
  ∀ s s' t t' : State, s.live → s'.live → s.enc = s'.enc → s.outSeq = s'.outSeq → s.outBase = s'.outBase →
    s.pins.encStart = s'.pins.encStart → s.pins.encW64 = s'.pins.encW64 → s.pins.encValue = s'.pins.encValue →
    s.pins.encOutReady = s'.pins.encOutReady → step s = .next t → step s' = .next t' → sameEncSide t t'

/-- DEC's next registers depend on DEC, DEC's ports and the bytes of IN below the bound alone, not on ENC, OUT, ENC's ports or any byte at or beyond the
bound (R10, R32, R129). The bytes below the bound are supplied, so that no free value is drawn (log entry 6). -/
def Obligations.DecoderIgnoresEncoderAndBeyondBound : Prop :=
  ∀ s s' t t' : State, s.live → s'.live → s.dec = s'.dec →
    (∀ a, a < s.dec.len → ∃ b, Memory.read s.inMem a = some b ∧ Memory.read s'.inMem a = some b) →
    s.pins.decStart = s'.pins.decStart → s.pins.decW64 = s'.pins.decW64 → s.pins.decLen = s'.pins.decLen →
    step s = .next t → step s' = .next t' → t.dec = t'.dec

/-- The only stores to IN are HOST's, between the edges; the last one HOST made to an index before the edge that reads it is seen by that edge (R30, R45). -/
def Obligations.OnlyHostStoresToInput : Prop :=
  ∀ s t : State, step s = .next t →
    (s.script = [] → ∀ a, Memory.read t.inMem a = Memory.read s.inMem a) ∧
      (∀ m rest, s.script = m :: rest →
        (∀ a, (∀ c ∈ m.stores, c.1 ≠ a) → Memory.read t.inMem a = Memory.read s.inMem a) ∧
          (∀ earlier a b later, m.stores = earlier ++ (a, b) :: later → (∀ c ∈ later, c.1 ≠ a) →
            Memory.read t.inMem a = some b ∧ (t.dec.cursor.toNat = a → fetchByte t = b)))

/-- HOST reaches no register (R132): what a step makes of the two units and of OUT does not depend on the moves HOST makes after it. -/
def Obligations.HostMovesReachNoRegister : Prop :=
  ∀ (s t t' : State) (ms : List HostMove), step s = .next t → step { s with script := ms } = .next t' →
    t.enc = t'.enc ∧ t.dec = t'.dec ∧ t.outSeq = t'.outSeq ∧ t.outBase = t'.outBase

/-- Done, Failed and Idle keep (R110): over any k edges at which HOST neither starts a decode nor resets (the first has the ports of `s`, the others those of the next
k - 1 moves), every register of DEC and the result it shows stay, whatever ENC does and whatever HOST drives for the edge after them. -/
def Obligations.ResultStaysReadable : Prop :=
  ∀ (k : Nat) (s : State), s.live → s.dec.state ≠ .reading → s.pins.decStart = false → noReset (s.script.take (k - 1)) →
    (∀ m ∈ s.script.take (k - 1), m.pins.decStart = false) →
      ∃ t : State, Host.Core.run Sys2Proof.core k s = .next t ∧ t.dec = s.dec ∧ t.decResult = s.decResult ∧
        decValuePort t = decValuePort s ∧ decConsumedPort t = decConsumedPort s ∧ decErrPort t = decErrPort s

/-! ## Invariants (10_state.md R25) -/

/-- The state right after reset is legal (R25). -/
def Obligations.ResetIsLegal : Prop := State.reset.Inv

/-- Every edge from a legal state leads to a legal state (R25 and the canonical form of IN). -/
def Obligations.StepKeepsLegal : Prop := ∀ s t : State, s.Inv → step s = .next t → t.Inv

/-- In a legal state every read of IN is below the slice bound and below G(W) (R32, R35), and a merge shifts by at most 28 or 63, less than W (R102). -/
def Obligations.ReadsAndShiftsStayInBounds : Prop :=
  ∀ s : State, s.Inv → decRdEnPort s = true →
    decRdAddrPort s = s.dec.cursor ∧ s.dec.cursor.toNat < s.dec.len ∧ s.dec.cursor.toNat < maxGroups s.dec.w ∧
      s.dec.pos.toNat ≤ 7 * (maxGroups s.dec.w - 1) ∧ 7 * (maxGroups s.dec.w - 1) < widthBits s.dec.w

/-- In a legal state the merge is a sum without carry (R103 c), and the counters do not wrap (R103 d). -/
def Obligations.MergeIsCarryFree : Prop :=
  ∀ (s : State) (g : Group), s.Inv → decRdEnPort s = true →
    s.dec.acc.toNat ||| g.toNat <<< s.dec.pos.toNat = s.dec.acc.toNat + g.toNat <<< s.dec.pos.toNat ∧
      s.dec.acc.toNat ^^^ g.toNat <<< s.dec.pos.toNat = s.dec.acc.toNat + g.toNat <<< s.dec.pos.toNat ∧
      (s.dec.cursor + 1).toNat = s.dec.cursor.toNat + 1 ∧ (s.dec.pos + 7).toNat = s.dec.pos.toNat + 7

/-! ## The ports of a result (42_host_interface.md) -/

/-- `dec_value` (R127): after a DEC64 the accumulator, after a DEC32 its low half sign-extended; either way the port read as a signed number is the value. -/
def Obligations.ValuePortIsSigned : Prop :=
  ∀ s : State, s.dec.state = .done →
    ∃ x, decValuePort s = .ok x ∧ x.toInt = signedW s.dec.w s.dec.acc ∧
      (s.dec.w = .w64 → x = s.dec.acc) ∧
      (s.dec.w = .w32 → x = (s.dec.acc.setWidth 32).signExtend 64 ∧ (x.setWidth 32).toInt = x.toInt)

/-- The value and the count are shown in Done and have no value outside it (R21, R126; U3); the read address is the cursor when `dec_rd_en` = 1, the byte and its flag are
those of R123 when `enc_out_valid` = 1, and each is a free value otherwise (R120, U5), the flag the inverse of the byte's bit 7 always. How the values that are not there
are treated is the model's choice (log entry 16). `dec_err` is None exactly when `dec_state` is not Failed, and 11 is never shown (R24, R25 e, R140). -/
def Obligations.PortsDefinedOnlyWhenStated : Prop :=
  ∀ s : State,
    (s.dec.state ≠ .done → decValuePort s = .error .noDecodeResult ∧ decConsumedPort s = .error .noDecodeResult) ∧
      (s.dec.state = .done → decValuePort s = .ok (portValue s.dec.w s.dec.acc) ∧ decConsumedPort s = .ok s.dec.cursor) ∧
      (decRdEnPort s = true ↔ s.dec.state = .reading ∧ s.dec.cursor.toNat < s.dec.len) ∧
      (decRdEnPort s = true → decRdAddrPort s = s.dec.cursor) ∧
      (decRdEnPort s = false → decRdAddrPort s = Config.freeReadAddr s.draws) ∧
      (encOutValidPort s = true ↔ s.enc.state = .emitting) ∧
      (encOutValidPort s = true → encOutBytePort s = pack (more s.enc.w s.enc.pat) (group s.enc.pat)) ∧
      (encOutValidPort s = false → encOutBytePort s = Config.freeOutByte s.draws) ∧
      encOutLastPort s = !(contBit (encOutBytePort s)) ∧
      (decErrPort s = 0b00 ↔ decStatePort s ≠ 0b11) ∧ decErrPort s ≠ 0b11

/-- The status ports show the codes of R24, one for each state. -/
def Obligations.StatusPortsShowTheCodes : Prop :=
  ∀ s : State,
    (encBusyPort s = true ↔ s.enc.state = .emitting) ∧ encOutValidPort s = encBusyPort s ∧
      (decStatePort s = 0b00 ↔ s.dec.state = .idle) ∧ (decStatePort s = 0b01 ↔ s.dec.state = .reading) ∧
      (decStatePort s = 0b10 ↔ s.dec.state = .done) ∧ (decStatePort s = 0b11 ↔ ∃ k, s.dec.state = .failed k) ∧
      (decErrPort s = 0b01 ↔ s.dec.state = .failed .incomplete) ∧ (decErrPort s = 0b10 ↔ s.dec.state = .failed .tooLarge)

/-! ## Whole operations on the block -/

/-- An encode operation (R74, R75, R82, R123, R166): a start with value v on a free ENC, and then any k moves of HOST without reset in which it is ready at
least as often as there are bytes, whatever DEC does meanwhile and whatever HOST does later, end with ENC Idle and exactly `enc(W, v)` of R70 emitted, in wire
order, the last byte marked. -/
def Obligations.EncodeOperationEmitsEnc : Prop :=
  ∀ (s : State) (w : Width) (v : Int) (k : Nat), s.live → s.enc.state = .idle → s.pins.encStart = true →
    s.pins.encW64 = widthBit w → truncW w s.pins.encValue = patternW w v →
    noReset (s.script.take k) → (enc w v).length ≤ readyEdges (s.script.take k) →
      ∃ (j : Nat) (t : State), j ≤ k ∧ Host.Core.run Sys2Proof.core (j + 1) s = .next t ∧ t.enc.state = .idle ∧
        t.opOut = (enc w v).map asOut ∧ t.outSeq = s.outSeq ++ (enc w v).map asOut

/-- A decode operation (R98, R99, R109, R125; in terms of the results, R108): a start on a free DEC with the length of a slice that HOST holds, no reset and the slice
kept until the terminal state, whatever ENC does, whatever the registers held before and whatever HOST does afterwards, ends after `decSteps` steps, at most G(W), with
exactly the result `dec(W, IN, len)` of R90. -/
def Obligations.DecodeOperationComputesDec : Prop :=
  ∀ (s : State) (w : Width) (bs : List Byte), s.live → s.dec.state ≠ .reading → s.pins.decStart = true →
    s.pins.decW64 = widthBit w → s.pins.decLen = bs.length → holdsSlice s.inMem bs →
    noReset (s.script.take (decSteps w bs)) → slicesKept (s.script.take (decSteps w bs)) →
      1 ≤ decSteps w bs ∧ decSteps w bs ≤ maxGroups w ∧
        ∃ t : State, Host.Core.run Sys2Proof.core (decSteps w bs + 1) s = .next t ∧ t.decResult = some (dec w bs)

/-- A slice that HOST changes during a decode, or holds only in part (R43, R45, U8; R164 H1 to H3): with no duty kept but that no reset comes in the n moves after the start,
the operation has ended after some k of the n edges that follow, at most G(W), with `dec` of the bytes as they were on the read port, each at the step that read it; or it
is still Reading after all n, which are then fewer than G(W). Either way it has read at most as many bytes as the length latched at the start, with one cursor step for each. -/
def Obligations.DecodeResultIsOfBytesRead : Prop :=
  ∀ (s : State) (w : Width) (n : Nat), s.live → s.dec.state ≠ .reading → s.pins.decStart = true →
    s.pins.decW64 = widthBit w → noReset (s.script.take n) →
      ∃ (k : Nat) (t₀ t : State), k ≤ n ∧ step s = .next t₀ ∧ Host.Core.run Sys2Proof.core k t₀ = .next t ∧
        (readsAlong k t₀).length ≤ s.pins.decLen ∧ t.dec.cursor.toNat = (readsAlong k t₀).length ∧
        ((1 ≤ k ∧ k ≤ maxGroups w ∧ t.decResult = some (dec w (readsAlong k t₀))) ∨
          (k = n ∧ n < maxGroups w ∧ t.dec.state = .reading ∧ (readsAlong k t₀).length = n))
end

