-- ==== Sys2Proof/Laws/Bits.lean ====
section
/-! SUPPORT. The operand forms and flag tests as facts about numbers: cite these instead of unfolding the bit vectors. -/

namespace Sys2Proof.Machine

@[simp] theorem widthBits_w32 : widthBits .w32 = 32 := rfl
@[simp] theorem widthBits_w64 : widthBits .w64 = 64 := rfl
@[simp] theorem maxGroups_w32 : maxGroups .w32 = 5 := rfl
@[simp] theorem maxGroups_w64 : maxGroups .w64 = 10 := rfl
@[simp] theorem widthOfBit_widthBit (w : Width) : widthOfBit (widthBit w) = w := by cases w <;> rfl
@[simp] theorem widthBit_widthOfBit (b : Bool) : widthBit (widthOfBit b) = b := by cases b <;> rfl

theorem truncW_toNat (w : Width) (x : Word) : (truncW w x).toNat = x.toNat % 2 ^ widthBits w := by
  cases w
  · simp only [truncW, BitVec.toNat_setWidth, widthBits]; omega
  · simp only [truncW, widthBits]; exact (Nat.mod_eq_of_lt x.isLt).symm

theorem truncW_lt (w : Width) (x : Word) : (truncW w x).toNat < 2 ^ widthBits w := by
  rw [truncW_toNat]; exact Nat.mod_lt _ (Nat.two_pow_pos _)

theorem truncW_of_lt {w : Width} {x : Word} (h : x.toNat < 2 ^ widthBits w) : truncW w x = x :=
  BitVec.eq_of_toNat_eq (by rw [truncW_toNat, Nat.mod_eq_of_lt h])

@[simp] theorem truncW_idem (w : Width) (x : Word) : truncW w (truncW w x) = truncW w x :=
  truncW_of_lt (truncW_lt w x)

theorem patternW_toNat (w : Width) (v : Int) : ((patternW w v).toNat : Int) = v % 2 ^ widthBits w := by
  cases w <;> simp [patternW, BitVec.toNat_ofInt] <;> omega

theorem patternW_lt (w : Width) (v : Int) : (patternW w v).toNat < 2 ^ widthBits w := by
  have h := patternW_toNat w v
  cases w <;> simp at * <;> omega

theorem signedW_eq (w : Width) (p : Word) :
    signedW w p =
      if p.toNat % 2 ^ widthBits w < 2 ^ (widthBits w - 1) then ((p.toNat % 2 ^ widthBits w : Nat) : Int)
      else ((p.toNat % 2 ^ widthBits w : Nat) : Int) - 2 ^ widthBits w := by
  have hp := p.isLt
  split <;> cases w <;> simp only [signedW, BitVec.toInt_eq_toNat_cond, BitVec.toNat_setWidth, widthBits] at * <;> split <;>
    push_cast <;> omega

/-- The sign changes no bit: the reading of the pattern of a value in range is the value (R55). -/
theorem signedW_patternW {w : Width} {v : Int} (hl : -(2 ^ (widthBits w - 1)) ≤ v) (hu : v < 2 ^ (widthBits w - 1)) :
    signedW w (patternW w v) = v := by
  have h := patternW_toNat w v
  rw [signedW_eq]
  split <;> cases w <;> simp only [widthBits] at * <;> omega

theorem patternW_signedW (w : Width) (p : Word) : patternW w (signedW w p) = truncW w p := by
  apply BitVec.eq_of_toNat_eq
  have h := patternW_toNat w (signedW w p)
  have hs := signedW_eq w p
  have ht := truncW_toNat w p
  split at hs <;> cases w <;> simp only [widthBits] at * <;> omega

theorem group_toNat (p : Word) : (group p).toNat = p.toNat % 2 ^ 7 := by simp [group]

theorem pack_toNat (c : Bool) (g : Group) : (pack c g).toNat = (if c then 0x80 else 0) + g.toNat := by
  have h : (pack c g).toNat = (BitVec.ofBool c).toNat <<< 7 ||| g.toNat := BitVec.toNat_append (BitVec.ofBool c) g
  have hg := g.isLt
  rw [h, ← Nat.shiftLeft_add_eq_or_of_lt hg]
  cases c <;> simp [Nat.shiftLeft_eq]

theorem contBit_iff (b : Byte) : contBit b = true ↔ 0x80 ≤ b.toNat := by
  have hb := b.isLt
  rw [contBit, BitVec.getElem_eq_testBit_toNat, Nat.testBit_eq_decide_div_mod_eq, decide_eq_true_iff]
  omega

theorem byteGroup_toNat (b : Byte) : (byteGroup b).toNat = b.toNat % 2 ^ 7 := by simp [byteGroup]

@[simp] theorem contBit_pack (c : Bool) (g : Group) : contBit (pack c g) = c := by
  have hg := g.isLt
  rw [Bool.eq_iff_iff, contBit_iff, pack_toNat]
  cases c
  · simp; omega
  · simp

@[simp] theorem byteGroup_pack (c : Bool) (g : Group) : byteGroup (pack c g) = g := by
  apply BitVec.eq_of_toNat_eq
  have hg := g.isLt
  rw [byteGroup_toNat, pack_toNat]
  cases c <;> simp <;> omega

@[simp] theorem pack_contBit_byteGroup (b : Byte) : pack (contBit b) (byteGroup b) = b := by
  apply BitVec.eq_of_toNat_eq
  have hb := b.isLt
  have h := contBit_iff b
  rw [pack_toNat, byteGroup_toNat]
  cases hc : contBit b <;> simp [hc] at h ⊢ <;> omega

theorem more_iff (w : Width) (p : Word) : more w p = true ↔ 0x80 ≤ p.toNat % 2 ^ widthBits w := by
  rw [more, decide_eq_true_iff, ne_eq, ← BitVec.toNat_inj, BitVec.toNat_ushiftRight, truncW_toNat, Nat.shiftRight_eq_div_pow]
  change ¬(_ = 0) ↔ _
  omega

theorem more_eq_false_iff (w : Width) (p : Word) : more w p = false ↔ p.toNat % 2 ^ widthBits w < 0x80 := by
  rw [← Bool.not_eq_true, more_iff]; omega

theorem shiftOut_toNat (w : Width) (p : Word) : (shiftOut w p).toNat = p.toNat % 2 ^ widthBits w / 2 ^ 7 := by
  rw [shiftOut, BitVec.toNat_ushiftRight, truncW_toNat, Nat.shiftRight_eq_div_pow]

theorem mergeGroup_toNat (w : Width) (acc : Word) (g : Group) (pos : Nat) :
    (mergeGroup w acc g pos).toNat = (acc.toNat ||| g.toNat <<< pos) % 2 ^ widthBits w := by
  have hg : (g.setWidth 64).toNat = g.toNat := by
    have := g.isLt
    simp only [BitVec.toNat_setWidth]; omega
  rw [mergeGroup, truncW_toNat, BitVec.toNat_or, BitVec.toNat_shiftLeft, hg]
  apply Nat.eq_of_testBit_eq
  intro i
  have hw : widthBits w ≤ 64 := by cases w <;> simp
  simp only [Nat.testBit_mod_two_pow, Nat.testBit_or]
  by_cases h : i < widthBits w
  · simp [h, show i < 64 by omega]
  · simp [h]

/-- Where the accumulator has no bit at or above the position, the merge is a sum (R103 c). -/
theorem or_shift_eq_add {acc g pos : Nat} (h : acc < 2 ^ pos) : acc ||| g <<< pos = acc + g <<< pos := by
  rw [Nat.or_comm, Nat.shiftLeft_eq, Nat.mul_comm, ← Nat.two_pow_add_eq_or_of_lt h, Nat.add_comm]

theorem overflows_reaches (w : Width) (pos : Nat) : overflows .reaches w pos = true ↔ widthBits w ≤ pos := by
  simp [overflows]

@[simp] theorem overflows_config (w : Width) (pos : Nat) : overflows Config.overflowTest w pos = decide (widthBits w ≤ pos) := rfl

theorem exhausted_iff (d : Dec) : exhausted d = true ↔ d.len ≤ d.cursor.toNat := by simp [exhausted]

theorem exhausted_eq_false_iff (d : Dec) : exhausted d = false ↔ d.cursor.toNat < d.len := by simp [exhausted]

end Sys2Proof.Machine
end

