-- ==== Sys2Proof/Laws/State.lean ====
section
/-! SUPPORT. One lemma per field per update of the state, so that no later proof unfolds a record update. -/

namespace Sys2Proof.Machine

/-! `emit` -/

@[simp] theorem emit_enc (b : Byte) (last : Bool) (s : State) : (emit b last s).enc = s.enc := rfl
@[simp] theorem emit_dec (b : Byte) (last : Bool) (s : State) : (emit b last s).dec = s.dec := rfl
@[simp] theorem emit_inMem (b : Byte) (last : Bool) (s : State) : (emit b last s).inMem = s.inMem := rfl
@[simp] theorem emit_outSeq (b : Byte) (last : Bool) (s : State) : (emit b last s).outSeq = s.outSeq ++ [{ byte := b, last := last }] := rfl
@[simp] theorem emit_outBase (b : Byte) (last : Bool) (s : State) : (emit b last s).outBase = s.outBase := rfl
@[simp] theorem emit_pins (b : Byte) (last : Bool) (s : State) : (emit b last s).pins = s.pins := rfl
@[simp] theorem emit_script (b : Byte) (last : Bool) (s : State) : (emit b last s).script = s.script := rfl
@[simp] theorem emit_resetSeen (b : Byte) (last : Bool) (s : State) : (emit b last s).resetSeen = s.resetSeen := rfl
@[simp] theorem emit_draws (b : Byte) (last : Bool) (s : State) : (emit b last s).draws = s.draws := rfl

/-! `raise` -/

@[simp] theorem raise_enc (k : FailKind) (s : State) : (raise k s).enc = s.enc := rfl
@[simp] theorem raise_dec (k : FailKind) (s : State) : (raise k s).dec = { s.dec with state := .failed k } := rfl
@[simp] theorem raise_inMem (k : FailKind) (s : State) : (raise k s).inMem = s.inMem := rfl
@[simp] theorem raise_outSeq (k : FailKind) (s : State) : (raise k s).outSeq = s.outSeq := rfl
@[simp] theorem raise_outBase (k : FailKind) (s : State) : (raise k s).outBase = s.outBase := rfl
@[simp] theorem raise_pins (k : FailKind) (s : State) : (raise k s).pins = s.pins := rfl
@[simp] theorem raise_script (k : FailKind) (s : State) : (raise k s).script = s.script := rfl
@[simp] theorem raise_resetSeen (k : FailKind) (s : State) : (raise k s).resetSeen = s.resetSeen := rfl
@[simp] theorem raise_draws (k : FailKind) (s : State) : (raise k s).draws = s.draws := rfl

/-! `mergeStep` -/

@[simp] theorem mergeStep_enc (g : Group) (s : State) : (mergeStep g s).enc = s.enc := rfl
@[simp] theorem mergeStep_dec (g : Group) (s : State) : (mergeStep g s).dec = 
    { s.dec with cursor := s.dec.cursor + 1, acc := mergeGroup s.dec.w s.dec.acc g s.dec.pos.toNat } := rfl
@[simp] theorem mergeStep_inMem (g : Group) (s : State) : (mergeStep g s).inMem = s.inMem := rfl
@[simp] theorem mergeStep_outSeq (g : Group) (s : State) : (mergeStep g s).outSeq = s.outSeq := rfl
@[simp] theorem mergeStep_outBase (g : Group) (s : State) : (mergeStep g s).outBase = s.outBase := rfl
@[simp] theorem mergeStep_pins (g : Group) (s : State) : (mergeStep g s).pins = s.pins := rfl
@[simp] theorem mergeStep_script (g : Group) (s : State) : (mergeStep g s).script = s.script := rfl
@[simp] theorem mergeStep_resetSeen (g : Group) (s : State) : (mergeStep g s).resetSeen = s.resetSeen := rfl
@[simp] theorem mergeStep_draws (g : Group) (s : State) : (mergeStep g s).draws = s.draws := rfl

/-! `finalTail` -/

@[simp] theorem finalTail_enc (s : State) : (finalTail s).enc = s.enc := rfl
@[simp] theorem finalTail_dec (s : State) : (finalTail s).dec = { s.dec with state := .done } := rfl
@[simp] theorem finalTail_inMem (s : State) : (finalTail s).inMem = s.inMem := rfl
@[simp] theorem finalTail_outSeq (s : State) : (finalTail s).outSeq = s.outSeq := rfl
@[simp] theorem finalTail_outBase (s : State) : (finalTail s).outBase = s.outBase := rfl
@[simp] theorem finalTail_pins (s : State) : (finalTail s).pins = s.pins := rfl
@[simp] theorem finalTail_script (s : State) : (finalTail s).script = s.script := rfl
@[simp] theorem finalTail_resetSeen (s : State) : (finalTail s).resetSeen = s.resetSeen := rfl
@[simp] theorem finalTail_draws (s : State) : (finalTail s).draws = s.draws := rfl

/-! `advance` -/

@[simp] theorem advance_enc (s : State) : (advance s).enc = s.enc := rfl
@[simp] theorem advance_dec (s : State) : (advance s).dec = { s.dec with pos := s.dec.pos + 7 } := rfl
@[simp] theorem advance_inMem (s : State) : (advance s).inMem = s.inMem := rfl
@[simp] theorem advance_outSeq (s : State) : (advance s).outSeq = s.outSeq := rfl
@[simp] theorem advance_outBase (s : State) : (advance s).outBase = s.outBase := rfl
@[simp] theorem advance_pins (s : State) : (advance s).pins = s.pins := rfl
@[simp] theorem advance_script (s : State) : (advance s).script = s.script := rfl
@[simp] theorem advance_resetSeen (s : State) : (advance s).resetSeen = s.resetSeen := rfl
@[simp] theorem advance_draws (s : State) : (advance s).draws = s.draws := rfl

/-! `encEmitFinal` -/

@[simp] theorem encEmitFinal_enc (s : State) : (encEmitFinal s).enc = { s.enc with state := .idle } := rfl
@[simp] theorem encEmitFinal_dec (s : State) : (encEmitFinal s).dec = s.dec := rfl
@[simp] theorem encEmitFinal_inMem (s : State) : (encEmitFinal s).inMem = s.inMem := rfl
@[simp] theorem encEmitFinal_outSeq (s : State) : (encEmitFinal s).outSeq = 
    s.outSeq ++ [{ byte := pack false (group s.enc.pat), last := true }] := rfl
@[simp] theorem encEmitFinal_outBase (s : State) : (encEmitFinal s).outBase = s.outBase := rfl
@[simp] theorem encEmitFinal_pins (s : State) : (encEmitFinal s).pins = s.pins := rfl
@[simp] theorem encEmitFinal_script (s : State) : (encEmitFinal s).script = s.script := rfl
@[simp] theorem encEmitFinal_resetSeen (s : State) : (encEmitFinal s).resetSeen = s.resetSeen := rfl
@[simp] theorem encEmitFinal_draws (s : State) : (encEmitFinal s).draws = s.draws := rfl

/-! `encEmitCont` -/

@[simp] theorem encEmitCont_enc (s : State) : (encEmitCont s).enc = { s.enc with pat := shiftOut s.enc.w s.enc.pat } := rfl
@[simp] theorem encEmitCont_dec (s : State) : (encEmitCont s).dec = s.dec := rfl
@[simp] theorem encEmitCont_inMem (s : State) : (encEmitCont s).inMem = s.inMem := rfl
@[simp] theorem encEmitCont_outSeq (s : State) : (encEmitCont s).outSeq = 
    s.outSeq ++ [{ byte := pack true (group s.enc.pat), last := false }] := rfl
@[simp] theorem encEmitCont_outBase (s : State) : (encEmitCont s).outBase = s.outBase := rfl
@[simp] theorem encEmitCont_pins (s : State) : (encEmitCont s).pins = s.pins := rfl
@[simp] theorem encEmitCont_script (s : State) : (encEmitCont s).script = s.script := rfl
@[simp] theorem encEmitCont_resetSeen (s : State) : (encEmitCont s).resetSeen = s.resetSeen := rfl
@[simp] theorem encEmitCont_draws (s : State) : (encEmitCont s).draws = s.draws := rfl

/-! `resetEdge` -/

@[simp] theorem resetEdge_enc (s : State) : (resetEdge s).enc = 
    { state := .idle, w := Config.freeEncWidth s.draws, pat := Config.freeEncPat s.draws } := rfl
@[simp] theorem resetEdge_dec (s : State) : (resetEdge s).dec = 
    { state := .idle, w := Config.freeDecWidth s.draws, len := Config.freeDecLen s.draws,
      acc := Config.freeDecAcc s.draws, pos := Config.freeDecPos s.draws, cursor := Config.freeDecCursor s.draws } := rfl
@[simp] theorem resetEdge_inMem (s : State) : (resetEdge s).inMem = s.inMem := rfl
@[simp] theorem resetEdge_outSeq (s : State) : (resetEdge s).outSeq = s.outSeq := rfl
@[simp] theorem resetEdge_outBase (s : State) : (resetEdge s).outBase = s.outBase := rfl
@[simp] theorem resetEdge_pins (s : State) : (resetEdge s).pins = s.pins := rfl
@[simp] theorem resetEdge_script (s : State) : (resetEdge s).script = s.script := rfl
@[simp] theorem resetEdge_resetSeen (s : State) : (resetEdge s).resetSeen = true := rfl
@[simp] theorem resetEdge_draws (s : State) : (resetEdge s).draws = s.draws := rfl

/-! Updates that branch: the fields no branch writes. -/

@[simp] theorem encStart_dec (w : Width) (s : State) : (encStart w s).dec = s.dec := by
  unfold encStart; split <;> rfl

@[simp] theorem encStart_inMem (w : Width) (s : State) : (encStart w s).inMem = s.inMem := by
  unfold encStart; split <;> rfl

@[simp] theorem encStart_outSeq (w : Width) (s : State) : (encStart w s).outSeq = s.outSeq := by
  unfold encStart; split <;> rfl

@[simp] theorem encStart_pins (w : Width) (s : State) : (encStart w s).pins = s.pins := by
  unfold encStart; split <;> rfl

@[simp] theorem encStart_script (w : Width) (s : State) : (encStart w s).script = s.script := by
  unfold encStart; split <;> rfl

@[simp] theorem encStart_resetSeen (w : Width) (s : State) : (encStart w s).resetSeen = s.resetSeen := by
  unfold encStart; split <;> rfl

@[simp] theorem encStart_draws (w : Width) (s : State) : (encStart w s).draws = s.draws := by
  unfold encStart; split <;> rfl

@[simp] theorem encEmit_dec (s : State) : (encEmit s).dec = s.dec := by
  unfold encEmit; split <;> rfl

@[simp] theorem encEmit_inMem (s : State) : (encEmit s).inMem = s.inMem := by
  unfold encEmit; split <;> rfl

@[simp] theorem encEmit_outBase (s : State) : (encEmit s).outBase = s.outBase := by
  unfold encEmit; split <;> rfl

@[simp] theorem encEmit_pins (s : State) : (encEmit s).pins = s.pins := by
  unfold encEmit; split <;> rfl

@[simp] theorem encEmit_script (s : State) : (encEmit s).script = s.script := by
  unfold encEmit; split <;> rfl

@[simp] theorem encEmit_resetSeen (s : State) : (encEmit s).resetSeen = s.resetSeen := by
  unfold encEmit; split <;> rfl

@[simp] theorem encEmit_draws (s : State) : (encEmit s).draws = s.draws := by
  unfold encEmit; split <;> rfl

@[simp] theorem decStart_enc (w : Width) (s : State) : (decStart w s).enc = s.enc := by
  unfold decStart; split <;> rfl

@[simp] theorem decStart_inMem (w : Width) (s : State) : (decStart w s).inMem = s.inMem := by
  unfold decStart; split <;> rfl

@[simp] theorem decStart_outSeq (w : Width) (s : State) : (decStart w s).outSeq = s.outSeq := by
  unfold decStart; split <;> rfl

@[simp] theorem decStart_outBase (w : Width) (s : State) : (decStart w s).outBase = s.outBase := by
  unfold decStart; split <;> rfl

@[simp] theorem decStart_pins (w : Width) (s : State) : (decStart w s).pins = s.pins := by
  unfold decStart; split <;> rfl

@[simp] theorem decStart_script (w : Width) (s : State) : (decStart w s).script = s.script := by
  unfold decStart; split <;> rfl

@[simp] theorem decStart_resetSeen (w : Width) (s : State) : (decStart w s).resetSeen = s.resetSeen := by
  unfold decStart; split <;> rfl

@[simp] theorem decStart_draws (w : Width) (s : State) : (decStart w s).draws = s.draws := by
  unfold decStart; split <;> rfl

@[simp] theorem contTail_enc (s : State) : (contTail s).enc = s.enc := by
  unfold contTail; split <;> rfl

@[simp] theorem contTail_inMem (s : State) : (contTail s).inMem = s.inMem := by
  unfold contTail; split <;> rfl

@[simp] theorem contTail_outSeq (s : State) : (contTail s).outSeq = s.outSeq := by
  unfold contTail; split <;> rfl

@[simp] theorem contTail_outBase (s : State) : (contTail s).outBase = s.outBase := by
  unfold contTail; split <;> rfl

@[simp] theorem contTail_pins (s : State) : (contTail s).pins = s.pins := by
  unfold contTail; split <;> rfl

@[simp] theorem contTail_script (s : State) : (contTail s).script = s.script := by
  unfold contTail; split <;> rfl

@[simp] theorem contTail_resetSeen (s : State) : (contTail s).resetSeen = s.resetSeen := by
  unfold contTail; split <;> rfl

@[simp] theorem contTail_draws (s : State) : (contTail s).draws = s.draws := by
  unfold contTail; split <;> rfl

@[simp] theorem nextMove_enc (s : State) : (nextMove s).enc = s.enc := by
  unfold nextMove; split <;> rfl

@[simp] theorem nextMove_dec (s : State) : (nextMove s).dec = s.dec := by
  unfold nextMove; split <;> rfl

@[simp] theorem nextMove_outSeq (s : State) : (nextMove s).outSeq = s.outSeq := by
  unfold nextMove; split <;> rfl

@[simp] theorem nextMove_outBase (s : State) : (nextMove s).outBase = s.outBase := by
  unfold nextMove; split <;> rfl

@[simp] theorem nextMove_resetSeen (s : State) : (nextMove s).resetSeen = s.resetSeen := by
  unfold nextMove; split <;> rfl

@[simp] theorem nextMove_draws (s : State) : (nextMove s).draws = s.draws + 1 := by
  unfold nextMove; split <;> rfl

/-! What the branches write. -/

/-- The start step of ENC in Idle (R71). -/
theorem encStart_of_idle {s : State} (h : s.enc.state = .idle) (w : Width) :
    encStart w s =
      { s with
        enc := { state := .emitting, w := w, pat := truncW w s.pins.encValue },
        outBase := s.outSeq.length } := by
  simp only [encStart, h]

/-- A start request to a busy ENC is ignored (R128). -/
theorem encStart_of_emitting {s : State} (h : s.enc.state = .emitting) (w : Width) : encStart w s = s := by
  simp only [encStart, h]

/-- The start step of DEC outside Reading (R91). -/
theorem decStart_of_free {s : State} (h : s.dec.state ≠ .reading) (w : Width) :
    decStart w s =
      { s with dec := { state := .reading, w := w, len := s.pins.decLen, acc := 0, pos := 0, cursor := 0 } } := by
  unfold decStart
  split
  · contradiction
  all_goals rfl

/-- A start request to a busy DEC is ignored (R128). -/
theorem decStart_of_reading {s : State} (h : s.dec.state = .reading) (w : Width) : decStart w s = s := by
  simp only [decStart, h]

/-- The end of a CONT byte (R95): the position advanced, and TooLarge exactly when it reaches W. -/
theorem contTail_dec (s : State) :
    (contTail s).dec =
      { s.dec with
        pos := s.dec.pos + 7,
        state := if widthBits s.dec.w ≤ (s.dec.pos + 7).toNat then .failed .tooLarge else s.dec.state } := by
  simp only [contTail, overflows_config, advance_dec, decide_eq_true_eq]
  split <;> rfl

theorem fetchByte_of_supplied {s : State} {b : Byte} (h : Memory.read s.inMem s.dec.cursor.toNat = some b) :
    fetchByte s = b := by
  simp only [fetchByte, h]

theorem nextMove_nil {s : State} (h : s.script = []) :
    nextMove s = { s with pins := Pins.quiet, draws := s.draws + 1 } := by
  simp only [nextMove, h]

theorem nextMove_cons {s : State} {m : HostMove} {rest : List HostMove} (h : s.script = m :: rest) :
    nextMove s =
      { s with inMem := Memory.writeAll s.inMem m.stores, pins := m.pins, script := rest, draws := s.draws + 1 } := by
  simp only [nextMove, h]

end Sys2Proof.Machine
end

