-- ==== Sys2Proof/Laws/Exec.lean ====
section
/-! SUPPORT. What `exec` and the two units' edges answer: always a next state, and which one. -/

namespace Sys2Proof.Machine

/-- One byte consumed by DEC (R93 with R94 or R95), as a function of the byte. -/
def byteStep (b : Byte) (s : State) : State :=
  if contBit b then contTail (mergeStep (byteGroup b) s) else finalTail (mergeStep (byteGroup b) s)

/-- In Reading with no byte left a wire byte's step is the exhaustion step (R92). -/
theorem onByte_exhausted {s : State} {f : State → State} (h : s.dec.state = .reading) (he : exhausted s.dec = true) :
    onByte f s = raise .incomplete s := by
  simp only [onByte, h, he, if_true]

/-- In Reading below the bound the byte is consumed. -/
theorem onByte_reading {s : State} {f : State → State} (h : s.dec.state = .reading) (he : exhausted s.dec = false) :
    onByte f s = f s := by
  simp only [onByte, h, he, Bool.false_eq_true, if_false]

/-- Outside Reading a wire byte is not looked at (R110). -/
theorem onByte_of_ne {s : State} {f : State → State} (h : s.dec.state ≠ .reading) : onByte f s = s := by
  unfold onByte
  split
  · contradiction
  all_goals rfl

theorem exec_cmd_enc (w : Bool) (s : State) :
    exec (decodeCmd (cmdCode .enc w)) s = .next (encStart (widthOfBit w) s) := by
  cases w <;> rfl

theorem exec_cmd_dec (w : Bool) (s : State) :
    exec (decodeCmd (cmdCode .dec w)) s = .next (decStart (widthOfBit w) s) := by
  cases w <;> rfl

theorem exec_wire (b : Byte) (s : State) : exec (decodeWire b) s = .next (onByte (byteStep b) s) := by
  unfold decodeWire
  split <;> rename_i h <;> simp only [exec, execCont, execFinal] <;> congr 2 <;> funext t <;> simp [byteStep, h]

/-- ENC's state after an edge. -/
def encNext (s : State) : State :=
  match s.enc.state with
  | .idle => if s.pins.encStart then encStart (widthOfBit s.pins.encW64) s else s
  | .emitting => if s.pins.encOutReady then encEmit s else s

/-- DEC's state after an edge. -/
def decNext (s : State) : State :=
  match s.dec.state with
  | .reading => if exhausted s.dec then raise .incomplete s else byteStep (fetchByte s) s
  | .idle | .done | .failed _ => if s.pins.decStart then decStart (widthOfBit s.pins.decW64) s else s

/-- ENC at an edge answers `encNext`. -/
theorem encEdge_eq (s : State) : encEdge s = .next (encNext s) := by
  cases h : s.enc.state
  · simp only [encEdge, encNext, h, exec_cmd_enc]
    split <;> rfl
  · simp only [encEdge, encNext, h]
    split <;> rfl

/-- DEC at an edge answers `decNext`. -/
theorem decEdge_eq (s : State) : decEdge s = .next (decNext s) := by
  cases h : s.dec.state
  case reading =>
    have hr : readEnabled s.dec = !(exhausted s.dec) := by simp only [readEnabled, h]
    simp only [decEdge, decNext, h, hr]
    cases he : exhausted s.dec
    · simp [exec_wire, onByte_reading h he]
    · simp
  all_goals
    simp only [decEdge, decNext, h, exec_cmd_dec]
    split <;> rfl

/-- Both units at one edge. -/
theorem unitsEdge_eq (s : State) : unitsEdge s = .next (decNext (encNext s)) := by
  simp only [unitsEdge, encEdge_eq, andThen, decEdge_eq]

end Sys2Proof.Machine
end

