-- ==== Sys2Proof/Laws/Memory.lean ====
section
/-! SUPPORT. The laws of IN: a read after a store, and that every memory operation keeps the canonical form. -/

namespace Sys2Proof.Machine

/-- A read after a store to the same index gives the byte stored; every other index is as before. -/
theorem Memory.read_write (m : Memory) (a a' : Nat) (b : Byte) :
    Memory.read (Memory.write m a b) a' = if a' = a then some b else Memory.read m a' := by
  induction m with
  | nil => simp [Memory.write, Memory.read, eq_comm]
  | cons c m ih =>
    obtain ⟨k, x⟩ := c
    simp only [Memory.write]
    split
    · simp only [Memory.read, eq_comm (a := a)]
    · split
      · subst_vars; simp only [Memory.read, eq_comm (a := k)]; split <;> simp_all
      · simp only [Memory.read, ih]
        split
        · subst_vars; rw [if_neg (by omega)]
        · rfl

@[simp] theorem Memory.read_write_same (m : Memory) (a : Nat) (b : Byte) : Memory.read (Memory.write m a b) a = some b := by
  simp [Memory.read_write]

theorem Memory.read_write_other (m : Memory) {a a' : Nat} (b : Byte) (h : a' ≠ a) :
    Memory.read (Memory.write m a b) a' = Memory.read m a' := by
  simp [Memory.read_write, h]

theorem Memory.mem_keys_write {m : Memory} {a k : Nat} {b : Byte} (h : k ∈ (Memory.write m a b).map Prod.fst) :
    k = a ∨ k ∈ m.map Prod.fst := by
  induction m with
  | nil => simpa [Memory.write] using h
  | cons c m ih =>
    obtain ⟨k', x⟩ := c
    simp only [Memory.write] at h
    split at h
    · simpa using h
    · split at h
      · simp at h ⊢; tauto
      · simp only [List.map_cons, List.mem_cons] at h ⊢
        rcases h with h | h
        · exact .inr (.inl h)
        · rcases ih h with h | h
          · exact .inl h
          · exact .inr (.inr h)

/-- A store keeps the canonical form. -/
theorem Memory.wf_write {m : Memory} (h : Memory.wf m) (a : Nat) (b : Byte) : Memory.wf (Memory.write m a b) := by
  induction m with
  | nil => simp [Memory.wf, Memory.write]
  | cons c m ih =>
    obtain ⟨k, x⟩ := c
    have hk : ∀ k' ∈ m.map Prod.fst, k < k' := by simpa [Memory.wf] using (List.pairwise_cons.mp h).1
    have hm : Memory.wf m := (List.pairwise_cons.mp h).2
    simp only [Memory.write]
    split
    · refine List.pairwise_cons.mpr ⟨fun k' hk' => ?_, h⟩
      rcases List.mem_cons.mp hk' with rfl | hk'
      · assumption
      · exact lt_trans ‹_› (hk k' hk')
    · split
      · subst_vars; exact h
      · refine List.pairwise_cons.mpr ⟨fun k' hk' => ?_, ih hm⟩
        rcases Memory.mem_keys_write hk' with rfl | hk'
        · simp only; omega
        · exact hk k' hk'

theorem Memory.wf_writeAll {m : Memory} (h : Memory.wf m) (cs : List Host.Cell) : Memory.wf (Memory.writeAll m cs) := by
  induction cs generalizing m with
  | nil => exact h
  | cons c cs ih => exact ih (Memory.wf_write h c.1 c.2)

theorem Memory.writeAll_append (m : Memory) (cs ds : List Host.Cell) :
    Memory.writeAll m (cs ++ ds) = Memory.writeAll (Memory.writeAll m cs) ds := by
  induction cs generalizing m with
  | nil => rfl
  | cons c cs ih => exact ih _

/-- A list of stores leaves every index it does not name. -/
theorem Memory.read_writeAll_other {m : Memory} {cs : List Host.Cell} {a : Nat} (h : ∀ c ∈ cs, c.1 ≠ a) :
    Memory.read (Memory.writeAll m cs) a = Memory.read m a := by
  induction cs generalizing m with
  | nil => rfl
  | cons c cs ih =>
    have h1 := h c (by simp)
    rw [Memory.writeAll, ih (fun c' hc' => h c' (by simp [hc'])), Memory.read_write_other _ _ (Ne.symm h1)]

/-- Nothing is listed at reset, which is canonical. -/
theorem Memory.wf_reset : Memory.wf State.reset.inMem := by decide

/-- HOST's next move keeps the canonical form. -/
theorem Memory.wf_nextMove {s : State} (h : Memory.wf s.inMem) : Memory.wf (nextMove s).inMem := by
  unfold nextMove
  split
  · exact h
  · exact Memory.wf_writeAll h _

end Sys2Proof.Machine
end

