-- ==== Sys2Proof/Laws/PerInstr.lean ====
section
/-! SUPPORT. What holds of every instruction as syntax, one lemma per constructor: its code lies in its row of the opcode
table (30_encoding.md R51, R61, R62). -/

namespace Sys2Proof.Laws.TableRow

/-- A row of spec/opcode_table.json: its width in bits, its mask and its match. -/
structure Row where
  width : Nat
  mask : Nat
  value : Nat
deriving DecidableEq, Repr

/-- The row of each instruction, as the table prints it. -/
def row : Instr → Row
  | .enc32 => { width := 2, mask := 0x3, value := 0x0 }
  | .enc64 => { width := 2, mask := 0x3, value := 0x1 }
  | .dec32 => { width := 2, mask := 0x3, value := 0x2 }
  | .dec64 => { width := 2, mask := 0x3, value := 0x3 }
  | .cont _ => { width := 8, mask := 0x80, value := 0x80 }
  | .final _ => { width := 8, mask := 0x80, value := 0x00 }

/-- A code as a number with its width. -/
def bits : Code → Nat × Nat
  | .cmd c => (2, c.toNat)
  | .wire b => (8, b.toNat)

/-- The code of `i` has the width of its row and matches it under the row's mask. -/
def Statement (i : Instr) : Prop :=
  (bits (encode i)).1 = (row i).width ∧ (bits (encode i)).2 &&& (row i).mask = (row i).value

theorem enc32 : Statement .enc32 := ⟨rfl, rfl⟩
theorem enc64 : Statement .enc64 := ⟨rfl, rfl⟩
theorem dec32 : Statement .dec32 := ⟨rfl, rfl⟩
theorem dec64 : Statement .dec64 := ⟨rfl, rfl⟩

theorem masks (g : Group) :
    (Machine.pack true g).toNat &&& 0x80 = 0x80 ∧ (Machine.pack false g).toNat &&& 0x80 = 0 := by
  revert g; decide

theorem cont (g : Group) : Statement (.cont g) := ⟨rfl, (masks g).1⟩
theorem final (g : Group) : Statement (.final g) := ⟨rfl, (masks g).2⟩

end Sys2Proof.Laws.TableRow
end

