-- ==== Sys2Proof/Laws/Step.lean ====
section
/-! SUPPORT. What a step can do, said once; and that the two units do not meet inside an edge. -/

namespace Sys2Proof.Machine

/-! ## ENC's part of an edge leaves DEC's, and the other way round -/

@[simp] theorem encNext_dec (s : State) : (encNext s).dec = s.dec := by
  unfold encNext; split <;> split <;> simp

@[simp] theorem encNext_inMem (s : State) : (encNext s).inMem = s.inMem := by
  unfold encNext; split <;> split <;> simp

@[simp] theorem encNext_pins (s : State) : (encNext s).pins = s.pins := by
  unfold encNext; split <;> split <;> simp

@[simp] theorem encNext_script (s : State) : (encNext s).script = s.script := by
  unfold encNext; split <;> split <;> simp

@[simp] theorem encNext_resetSeen (s : State) : (encNext s).resetSeen = s.resetSeen := by
  unfold encNext; split <;> split <;> simp

@[simp] theorem encNext_draws (s : State) : (encNext s).draws = s.draws := by
  unfold encNext; split <;> split <;> simp

@[simp] theorem byteStep_enc (b : Byte) (s : State) : (byteStep b s).enc = s.enc := by unfold byteStep; split <;> simp
@[simp] theorem byteStep_inMem (b : Byte) (s : State) : (byteStep b s).inMem = s.inMem := by unfold byteStep; split <;> simp
@[simp] theorem byteStep_outSeq (b : Byte) (s : State) : (byteStep b s).outSeq = s.outSeq := by unfold byteStep; split <;> simp
@[simp] theorem byteStep_outBase (b : Byte) (s : State) : (byteStep b s).outBase = s.outBase := by unfold byteStep; split <;> simp
@[simp] theorem byteStep_pins (b : Byte) (s : State) : (byteStep b s).pins = s.pins := by unfold byteStep; split <;> simp
@[simp] theorem byteStep_script (b : Byte) (s : State) : (byteStep b s).script = s.script := by unfold byteStep; split <;> simp
@[simp] theorem byteStep_resetSeen (b : Byte) (s : State) : (byteStep b s).resetSeen = s.resetSeen := by
  unfold byteStep; split <;> simp

/-- What one consumed byte makes of DEC, field by field. -/
theorem byteStep_dec (b : Byte) (s : State) :
    (byteStep b s).dec =
      { s.dec with
        cursor := s.dec.cursor + 1,
        acc := mergeGroup s.dec.w s.dec.acc (byteGroup b) s.dec.pos.toNat,
        pos := if contBit b then s.dec.pos + 7 else s.dec.pos,
        state :=
          if contBit b then
            if widthBits s.dec.w ≤ (s.dec.pos + 7).toNat then .failed .tooLarge else s.dec.state
          else .done } := by
  unfold byteStep
  split <;> simp [contTail_dec]

@[simp] theorem decNext_enc (s : State) : (decNext s).enc = s.enc := by
  unfold decNext; split <;> split <;> simp

@[simp] theorem decNext_inMem (s : State) : (decNext s).inMem = s.inMem := by
  unfold decNext; split <;> split <;> simp

@[simp] theorem decNext_outSeq (s : State) : (decNext s).outSeq = s.outSeq := by
  unfold decNext; split <;> split <;> simp

@[simp] theorem decNext_outBase (s : State) : (decNext s).outBase = s.outBase := by
  unfold decNext; split <;> split <;> simp

@[simp] theorem decNext_pins (s : State) : (decNext s).pins = s.pins := by
  unfold decNext; split <;> split <;> simp

@[simp] theorem decNext_script (s : State) : (decNext s).script = s.script := by
  unfold decNext; split <;> split <;> simp

@[simp] theorem decNext_resetSeen (s : State) : (decNext s).resetSeen = s.resetSeen := by
  unfold decNext; split <;> split <;> simp

/-- DEC's registers after an edge, from DEC, its ports and the byte HOST answers. -/
def decAfter (d : Dec) (p : Pins) (b : Byte) : Dec :=
  match d.state with
  | .reading =>
    if exhausted d then { d with state := .failed .incomplete }
    else
      { d with
        cursor := d.cursor + 1,
        acc := mergeGroup d.w d.acc (byteGroup b) d.pos.toNat,
        pos := if contBit b then d.pos + 7 else d.pos,
        state :=
          if contBit b then
            if widthBits d.w ≤ (d.pos + 7).toNat then .failed .tooLarge else .reading
          else .done }
  | .idle | .done | .failed _ =>
    if p.decStart then
      { state := .reading, w := widthOfBit p.decW64, len := p.decLen, acc := 0, pos := 0, cursor := 0 }
    else d

/-- DEC's registers after an edge. -/
theorem decNext_dec (s : State) : (decNext s).dec = decAfter s.dec s.pins (fetchByte s) := by
  cases h : s.dec.state
  case reading =>
    simp only [decNext, decAfter, h]
    split <;> simp [byteStep_dec, h]
  all_goals
    simp only [decNext, decAfter, h]
    split
    · rw [decStart_of_free (by simp [h])]
    · rfl

theorem fetchByte_encNext (s : State) : fetchByte (encNext s) = fetchByte s := by
  simp only [fetchByte, encNext_inMem, encNext_dec, encNext_draws]

@[simp] theorem decNext_encNext_dec (s : State) : (decNext (encNext s)).dec = (decNext s).dec := by
  simp only [decNext_dec, encNext_dec, encNext_pins, fetchByte_encNext]

/-- ENC's registers after an edge, from ENC and its ports. -/
def encAfter (e : Enc) (p : Pins) : Enc :=
  match e.state with
  | .idle =>
    if p.encStart then
      { state := .emitting, w := widthOfBit p.encW64, pat := truncW (widthOfBit p.encW64) p.encValue }
    else e
  | .emitting =>
    if p.encOutReady then
      if more e.w e.pat then { e with pat := shiftOut e.w e.pat } else { e with state := .idle }
    else e

/-- ENC's registers after an edge. -/
theorem encNext_enc (s : State) : (encNext s).enc = encAfter s.enc s.pins := by
  cases h : s.enc.state
  · simp only [encNext, encAfter, h]
    split <;> simp [encStart, h]
  · simp only [encNext, encAfter, h]
    split
    · cases hm : more s.enc.w s.enc.pat <;> simp [encEmit, hm, h]
    · rfl

/-- What an edge adds to OUT: in Emitting with HOST ready the presented byte, else nothing (R123). -/
theorem encNext_outSeq (s : State) :
    (encNext s).outSeq =
      s.outSeq ++
        match s.enc.state with
        | .idle => []
        | .emitting =>
          if s.pins.encOutReady then
            [{ byte := pack (more s.enc.w s.enc.pat) (group s.enc.pat), last := !(more s.enc.w s.enc.pat) }]
          else [] := by
  cases h : s.enc.state
  · simp only [encNext, h]
    split <;> simp
  · simp only [encNext, h]
    split
    · cases hm : more s.enc.w s.enc.pat <;> simp [encEmit, hm]
    · simp

/-- The mark in OUT moves at a start step only. -/
theorem encNext_outBase (s : State) :
    (encNext s).outBase =
      match s.enc.state with
      | .idle => if s.pins.encStart then s.outSeq.length else s.outBase
      | .emitting => s.outBase := by
  unfold encNext
  split <;> rename_i h <;> split <;> simp [encStart, h]

@[simp] theorem byteStep_draws (b : Byte) (s : State) : (byteStep b s).draws = s.draws := by unfold byteStep; split <;> simp

/-- No unit touches the counter of free values: the edge itself moves it on (`nextMove_draws`). -/
@[simp] theorem decNext_draws (s : State) : (decNext s).draws = s.draws := by
  unfold decNext; split <;> split <;> simp

/-- Two states that differ in their ports alone are the same state after HOST's next move. -/
theorem nextMove_congr {s t : State} (he : s.enc = t.enc) (hd : s.dec = t.dec) (hi : s.inMem = t.inMem)
    (ho : s.outSeq = t.outSeq) (hb : s.outBase = t.outBase) (hs : s.script = t.script) (hr : s.resetSeen = t.resetSeen)
    (hw : s.draws = t.draws) : nextMove s = nextMove t := by
  obtain ⟨e, d, im, os, ob, p, sc, rs, dr⟩ := s
  simp only at he hd hi ho hb hs hr hw
  subst he hd hi ho hb hs hr hw
  rfl

/-! ## The step -/

/-- An edge with `rst` = 0 after a reset: both units, then HOST's move. -/
theorem step_of_live {s : State} (h : s.live) : step s = .next (nextMove (decNext (encNext s))) := by
  obtain ⟨hr, hp⟩ := h
  simp [step, hr, hp, unitsEdge_eq, andThen]

/-- An edge with `rst` = 1 (R160). -/
theorem step_of_rst {s : State} (h : s.pins.rst = true) : step s = .next (nextMove (resetEdge s)) := by
  simp [step, h]

/-- An edge with `rst` = 0 before the first reset (R163). -/
theorem step_before_reset {s : State} (h : s.resetSeen = false) (hp : s.pins.rst = false) :
    step s = .refused .beforeFirstReset := by
  simp [step, h, hp]

/-- All that a step with a next state can have done. -/
theorem step_cases {s t : State} (h : step s = .next t) :
    (s.pins.rst = true ∧ t = nextMove (resetEdge s)) ∨ (s.live ∧ t = nextMove (decNext (encNext s))) := by
  cases hp : s.pins.rst
  · cases hr : s.resetSeen
    · rw [step_before_reset hr hp] at h; cases h
    · rw [step_of_live ⟨hr, hp⟩] at h; cases h; exact .inr ⟨⟨hr, hp⟩, rfl⟩
  · rw [step_of_rst hp] at h; cases h; exact .inl ⟨rfl, rfl⟩

/-- A step never faults (R147). -/
theorem step_never_faults (s : State) (e : Fault) : step s ≠ .fault e := by
  unfold step
  split
  · simp
  · split
    · simp [unitsEdge_eq, andThen]
    · simp

/-- One step of a run of any machine of the host's interface. -/
theorem run_of_next (M : Host.Core) {s t : M.State} (k : Nat) (h : M.step s = .next t) : M.run (k + 1) s = M.run k t := by
  simp only [Host.Core.run, h]

/-- One step of a run of the block. -/
theorem run_succ {s t : State} (k : Nat) (h : step s = .next t) :
    Host.Core.run Sys2Proof.core (k + 1) s = Host.Core.run Sys2Proof.core k t :=
  run_of_next Sys2Proof.core k h

end Sys2Proof.Machine
end

