-- ==== Sys2Proof/Machine/Written.lean ====
section
/-! DEFINITION. The written form of operations and of their results (30_encoding.md R63). It is a notation: no step reads it. -/

namespace Sys2Proof.Machine

/-- One line of a test program: one of the four commands with its operands (R63). -/
inductive Line where
  | encode (w : Width) (v : Int)
  | decode (w : Width) (slice : List Byte)
deriving DecidableEq, Repr

/-- What stands after `=>` (R63). -/
inductive LineResult where
  | bytes (out : List Byte)
  | decoded (r : DecResult)
deriving DecidableEq, Repr

/-- The command code of a line (R61, R63). -/
def Line.command : Line → BitVec 2
  | .encode w _ => cmdCode .enc (widthBit w)
  | .decode w _ => cmdCode .dec (widthBit w)

/-- The result the operation of a line has (R70, R90). -/
def Line.result : Line → LineResult
  | .encode w v => .bytes (enc w v)
  | .decode w slice => .decoded (dec w slice)

/-- One hexadecimal digit. -/
def hexDigit (n : Nat) : String :=
  (["0", "1", "2", "3", "4", "5", "6", "7", "8", "9", "A", "B", "C", "D", "E", "F"] : List String).getD (n % 16) "0"

/-- A byte as two hexadecimal digits (95_test_vectors.md, "How to read this file"). -/
def byteText (b : Byte) : String := hexDigit (b.toNat / 16) ++ hexDigit b.toNat

/-- Bytes with a space between them. -/
def bytesText : List Byte → String
  | [] => ""
  | [b] => byteText b
  | b :: c :: rest => byteText b ++ " " ++ bytesText (c :: rest)

/-- `32` or `64`. -/
def widthText : Width → String
  | .w32 => "32"
  | .w64 => "64"

/-- The line as written, an encoded value in signed decimal. -/
def Line.text : Line → String
  | .encode w v => "ENC" ++ widthText w ++ " " ++ toString v
  | .decode w slice => "DEC" ++ widthText w ++ " [" ++ bytesText slice ++ "]"

/-- The result as written after `=>`. -/
def LineResult.text : LineResult → String
  | .bytes out => "[" ++ bytesText out ++ "]"
  | .decoded (.done v n) => "Done(" ++ toString v ++ ", " ++ toString n ++ ")"
  | .decoded (.failed .incomplete) => "Failed(Incomplete)"
  | .decoded (.failed .tooLarge) => "Failed(TooLarge)"

end Sys2Proof.Machine
end

