-- ==== Sys2Proof/Tests/Slice0.lean ====
section
/-! SUPPORT. Tests. Expected values are those of spec/95_test_vectors.md (the row is named) or of the rule named. The second half
shows, for every statement with hypotheses, a concrete input that meets them. -/

namespace Sys2Proof.Tests

open Sys2Proof Sys2Proof.Machine

/-! ## Decoding (R51, R61): words written out bit by bit -/

theorem test_decode_enc32 : decode (.cmd 0b00) = .enc32 := by decide
theorem test_decode_enc64 : decode (.cmd 0b01) = .enc64 := by decide
theorem test_decode_dec32 : decode (.cmd 0b10) = .dec32 := by decide
theorem test_decode_dec64 : decode (.cmd 0b11) = .dec64 := by decide
theorem test_decode_cont : decode (.wire 0b11011101) = .cont 0b1011101 := by decide
theorem test_decode_final : decode (.wire 0b00001111) = .final 0b0001111 := by decide

/-- A list of bytes gives its first instruction and the rest; a list of none, and a number that is no code, are rejected by name. -/
theorem test_decode_raw :
    decodeBytes [0xDD, 0xC7] = .ok (.cont 0x5D, [0xC7]) ∧ decodeBytes [] = .error .noByte ∧
      decodeCmdWord 2 = .ok .dec32 ∧ decodeCmdWord 4 = .error .wordTooWide ∧
      decodeWireWord 1 = .ok (.final 1) ∧ decodeWireWord 256 = .error .wordTooWide := by
  decide

/-- The numbering of the opcode-table interface (log entry 15). -/
theorem test_decode_table_word :
    decodeTableWord 2 3 = some .dec64 ∧ decodeTableWord 8 0 = some .enc32 ∧ decodeTableWord 8 0x7F = some (.final 0x7F) ∧
      decodeTableWord 8 0x80 = some (.cont 0) ∧ decodeTableWord 2 4 = none ∧ decodeTableWord 8 256 = none ∧
      decodeTableWord 16 0 = none := by
  decide

/-! ## Well-formed terms: each check refuses an ill-formed one (R52, R56) -/

theorem test_wf_accepts : canonicalWf .w32 [.cont 0x5D, .cont 0x47, .final 1] = true := by decide
theorem test_wf_empty : wireShape [] = false := by decide
theorem test_wf_no_final : wireShape [.cont 1] = false := by decide
theorem test_wf_two_finals : wireShape [.final 1, .final 1] = false := by decide
theorem test_wf_command_inside : wireShape [.cont 1, .enc32] = false := by decide
theorem test_wf_too_long :
    encodedIntegerWf .w32 [.cont 0, .cont 0, .cont 0, .cont 0, .cont 0, .final 1] = false ∧
      encodedIntegerWf .w64 [.cont 0, .cont 0, .cont 0, .cont 0, .cont 0, .final 1] = true := by
  decide
theorem test_wf_not_canonical : canonicalWf .w32 [.cont 0, .final 0] = false ∧ canonicalWf .w32 [.final 0] = true := by decide

/-! ## Small states -/

/-- The next state of an outcome. -/
def next? : Result → Option State
  | .next t => some t
  | .fault _ | .refused _ => none

/-- ENC in Emitting. -/
def emittingAt (w : Width) (pat : Word) (ready : Bool) : State :=
  { State.reset with
    enc := { state := .emitting, w := w, pat := pat },
    pins := { Pins.quiet with encOutReady := ready } }

/-- DEC in the middle of an operation. -/
def readingAt (w : Width) (acc : Word) (pos : BitVec 7) (cursor : BitVec 4) (len : Nat) (m : Memory) : State :=
  { State.reset with
    dec := { state := .reading, w := w, len := len, acc := acc, pos := pos, cursor := cursor },
    inMem := m }

/-- DEC with an ended operation. -/
def endedAt (st : DecState) (w : Width) (acc : Word) (pos : BitVec 7) (cursor : BitVec 4) (len : Nat) : State :=
  { State.reset with dec := { state := st, w := w, len := len, acc := acc, pos := pos, cursor := cursor } }

/-- Right after reset with other ports. -/
def withPins (p : Pins) : State := { State.reset with pins := p }

/-! ## One step each -/

/-- The port detail of ENC32: bits 63 to 32 of `enc_value` are ignored. -/
theorem test_enc32_ignores_high_half :
    (next? (exec .enc32 (withPins { Pins.quiet with encValue := 0xDEADBEEF000063DD }))).map (·.enc) =
      some { state := .emitting, w := .w32, pat := 0x63DD } := by
  decide

/-- E64-20: the whole port is the value. -/
theorem test_enc64_takes_whole_port :
    (next? (exec .enc64 (withPins { Pins.quiet with encValue := 0xFFFFFFFF80000000 }))).map (·.enc) =
      some { state := .emitting, w := .w64, pat := 0xFFFFFFFF80000000 } := by
  decide

/-- X4: a start after a failure leaves nothing of it. -/
theorem test_dec32_starts_from_failed :
    (next? (exec .dec32
        { endedAt (.failed .tooLarge) .w64 0xFFFFFFFF 70 10 15 with pins := { Pins.quiet with decLen := 3 } })).map (·.dec) =
      some { state := .reading, w := .w32, len := 3, acc := 0, pos := 0, cursor := 0 } := by
  decide

/-- X7: a start in Reading is ignored. -/
theorem test_dec64_ignored_when_reading :
    next? (exec .dec64 (readingAt .w32 0x5D 7 1 3 [(1, 0xC7)])) = some (readingAt .w32 0x5D 7 1 3 [(1, 0xC7)]) := by
  decide

/-- B8: at width 64 the position 35 is no overflow. -/
theorem test_cont_b8 :
    (next? (exec (.cont 0x0F) (readingAt .w64 0x0FFFFFFF 28 4 9 []))).map (·.dec) =
      some { state := .reading, w := .w64, len := 9, acc := 0xFFFFFFFF, pos := 35, cursor := 5 } := by
  decide

/-- B6: the fifth byte of a DEC32 is CONT. -/
theorem test_cont_b6 :
    (next? (exec (.cont 0x0F) (readingAt .w32 0x0FFFFFFF 28 4 5 []))).map (·.dec) =
      some { state := .failed .tooLarge, w := .w32, len := 5, acc := 0xFFFFFFFF, pos := 35, cursor := 5 } := by
  decide

/-- B5: an over-wide fifth group, its bits above 31 dropped. -/
theorem test_final_b5 :
    (next? (exec (.final 0x7F) (readingAt .w32 0x0FFFFFFF 28 4 5 []))).map (·.dec) =
      some { state := .done, w := .w32, len := 5, acc := 0xFFFFFFFF, pos := 28, cursor := 5 } := by
  decide

/-- B10: an over-wide tenth group, its bits above 63 dropped. -/
theorem test_final_b10 :
    (next? (exec (.final 0x7E) (readingAt .w64 0 63 9 10 []))).map (·.dec) =
      some { state := .done, w := .w64, len := 10, acc := 0, pos := 63, cursor := 10 } := by
  decide

/-- B3 as an edge: the byte comes from IN. -/
theorem test_step_reads_in :
    (next? (step (readingAt .w32 0x23DD 14 2 3 [(0, 0xDD), (1, 0xC7), (2, 0x01)]))).map (·.dec) =
      some { state := .done, w := .w32, len := 3, acc := 0x63DD, pos := 14, cursor := 3 } := by
  decide

/-- B12: the exhaustion step. -/
theorem test_step_exhaustion_b12 :
    (next? (step (readingAt .w32 0x5D 7 1 1 [(0, 0xDD), (1, 0xC7)]))).map (·.dec) =
      some { state := .failed .incomplete, w := .w32, len := 1, acc := 0x5D, pos := 7, cursor := 1 } := by
  decide

/-- The first emit step of ENC32 -1: zeros enter at the top. -/
theorem test_step_emit_first_of_minus_one :
    (next? (step (emittingAt .w32 0xFFFFFFFF true))).map (fun t => (t.enc, t.outSeq)) =
      some ({ state := .emitting, w := .w32, pat := 0x01FFFFFF }, [{ byte := 0xFF, last := false }]) := by
  decide

/-- The last emit step of ENC64 -1. -/
theorem test_step_emit_last_of_minus_one :
    (next? (step (emittingAt .w64 1 true))).map (fun t => (t.enc, t.outSeq)) =
      some ({ state := .idle, w := .w64, pat := 1 }, [{ byte := 0x01, last := true }]) := by
  decide

/-- X9: nothing moves while HOST is not ready, and DD stays on the port. -/
theorem test_step_waits :
    (next? (step (emittingAt .w32 0x63DD false))).map (fun t => (t.enc, t.outSeq)) =
        some ({ state := .emitting, w := .w32, pat := 0x63DD }, []) ∧
      encOutBytePort (emittingAt .w32 0x63DD false) = 0xDD ∧
      encOutLastPort (emittingAt .w32 0x63DD false) = false := by
  refine ⟨by decide, rfl, rfl⟩

/-- X12: reset wins over both starts. -/
theorem test_step_reset_wins :
    (next? (step (withPins { Pins.quiet with rst := true, encStart := true, decStart := true }))).map
        (fun t => (t.enc.state, t.dec.state)) = some (.idle, .idle) := rfl

/-- X13: both starts at one edge. -/
theorem test_step_both_starts :
    (next? (step (withPins { Pins.quiet with encStart := true, decStart := true, decW64 := true }))).map
        (fun t => (t.enc.state, t.enc.w, t.dec.state, t.dec.w)) = some (.emitting, .w32, .reading, .w64) := by
  decide

/-- The port detail after D32-17, and after D64-4 with the same accumulator. -/
theorem test_value_port :
    decValuePort (endedAt .done .w32 0xFFFFFFFF 28 5 5) = .ok 0xFFFFFFFFFFFFFFFF ∧
      decValuePort (endedAt .done .w64 0xFFFFFFFF 28 5 5) = .ok 0x00000000FFFFFFFF ∧
      decConsumedPort (endedAt .done .w32 0xFFFFFFFF 28 5 5) = .ok 5 := ⟨rfl, rfl, rfl⟩

/-- After D32-21 and after D32-8. -/
theorem test_error_ports :
    decStatePort (endedAt (.failed .tooLarge) .w32 0 35 5 5) = 0b11 ∧
      decErrPort (endedAt (.failed .tooLarge) .w32 0 35 5 5) = 0b10 ∧
      decErrPort (endedAt (.failed .incomplete) .w32 0x23DD 14 2 2) = 0b01 := by
  decide

/-- HOST's stores: the cells stay in order and a later store to the same index wins. -/
theorem test_host_stores :
    Memory.writeAll [] [(2, 0x01), (0, 0xDD), (2, 0x02)] = [(0, 0xDD), (2, 0x02)] := by decide

/-- S4, S7 and S10. -/
theorem test_enc_examples :
    enc .w32 25565 = [0xDD, 0xC7, 0x01] ∧ enc .w32 (-2147483648) = [0x80, 0x80, 0x80, 0x80, 0x08] ∧
      enc .w64 (-1) = [0xFF, 0xFF, 0xFF, 0xFF, 0xFF, 0xFF, 0xFF, 0xFF, 0xFF, 0x01] := by
  decide

/-- D32-10, D32-18, D32-21, D32-28 and D64-5. -/
theorem test_dec_examples :
    dec .w32 [0xDD, 0xC7, 0x01, 0xAA, 0xBB] = .done 25565 3 ∧ dec .w32 [0xFF, 0xFF, 0xFF, 0xFF, 0x7F] = .done (-1) 5 ∧
      dec .w32 [0x80, 0x80, 0x80, 0x80, 0x80] = .failed .tooLarge ∧ dec .w32 [0x80, 0x80, 0x80, 0x80] = .failed .incomplete ∧
      dec .w64 [0xFF, 0xFF, 0xFF, 0xFF, 0x7F] = .done 34359738367 5 := by
  decide

/-- A placed word runs at the next step: DD as the first byte of a decode (B2), and DEC64 (R99). -/
theorem test_placed_word :
    (next? (step (State.reset.withFetchWord 8 0xDD))).map (·.dec) =
        some { state := .reading, w := .w32, len := 1, acc := 0x5D, pos := 7, cursor := 1 } ∧
      (next? (step (State.reset.withFetchWord 8 3))).map (·.dec) =
        some { state := .reading, w := .w64, len := 0, acc := 0, pos := 0, cursor := 0 } := by
  decide

/-- S4 and D32-18 as R63 writes them. -/
theorem test_written_form :
    (Line.encode .w32 25565).text = "ENC32 25565" ∧ (Line.encode .w32 25565).result.text = "[DD C7 01]" ∧
      (Line.decode .w32 [0xFF, 0xFF, 0xFF, 0xFF, 0x7F]).text = "DEC32 [FF FF FF FF 7F]" ∧
      (Line.decode .w32 [0xFF, 0xFF, 0xFF, 0xFF, 0x7F]).result.text = "Done(-1, 5)" ∧
      decode (.cmd (Line.decode .w64 []).command) = .dec64 := by
  decide

/-! ## Witnesses: the hypotheses of every statement that has any are met together -/

theorem witness_DecodeEncodeRoundTrip : Instr.wf (.cont 0x5D) = true ∧ Instr.wf .dec64 = true := by decide

theorem witness_WireClassIsTopBit :
    128 ≤ (0x80 : Byte).toNat ∧ 128 ≤ (0xFF : Byte).toNat ∧ (0x00 : Byte).toNat < 128 ∧ (0x7F : Byte).toNat < 128 := by decide

theorem witness_EncodeLengthLaw :
    1 ≤ 1 ∧ (patternW .w32 127).toNat < 2 ^ (7 * 1) ∧ 1 ≤ 2 ∧ (patternW .w64 128).toNat < 2 ^ (7 * 2) := by decide

theorem witness_EncodeBytewise : 0 < (enc .w32 128).length ∧ 1 < (enc .w32 128).length ∧ 9 < (enc .w64 (-1)).length := by decide

theorem witness_EncodeMinimal :
    (patternW .w32 1).toNat ≠ 0 ∧ (patternW .w32 0).toNat = 0 ∧
      dec .w32 [0x81, 0x80, 0x80, 0x00] = .done (signedW .w32 (patternW .w32 1)) 4 := by decide

theorem witness_NegativeTakesFullLength :
    (-(2 ^ 31) ≤ (-1 : Int) ∧ (-1 : Int) < 0) ∧ (-(2 ^ 31) ≤ (-(2 ^ 31) : Int) ∧ (-(2 ^ 31) : Int) < 0) ∧
      (-(2 ^ 63) ≤ (-(2 ^ 63) : Int) ∧ (-(2 ^ 63) : Int) < 0) := by decide

theorem witness_EncodeAcrossWidths :
    (0 ≤ (2 ^ 31 - 1 : Int) ∧ (2 ^ 31 - 1 : Int) < 2 ^ 31) ∧ (-(2 ^ 31) ≤ (-(2 ^ 31) : Int) ∧ (-(2 ^ 31) : Int) < 0) := by decide

/-- Both ends of both ranges, and a canonical, a non-canonical and an over-wide sequence. -/
theorem witness_RoundTrip :
    (-(2 ^ (widthBits .w32 - 1)) ≤ (-(2 ^ 31) : Int) ∧ (-(2 ^ 31) : Int) < 2 ^ (widthBits .w32 - 1)) ∧
      (-(2 ^ (widthBits .w32 - 1)) ≤ (2 ^ 31 - 1 : Int) ∧ (2 ^ 31 - 1 : Int) < 2 ^ (widthBits .w32 - 1)) ∧
      (-(2 ^ (widthBits .w64 - 1)) ≤ (-(2 ^ 63) : Int) ∧ (2 ^ 63 - 1 : Int) < 2 ^ (widthBits .w64 - 1)) ∧
      dec .w32 [0x80, 0x01] = .done 128 2 ∧ dec .w32 [0x80, 0x00] = .done 0 2 ∧
      dec .w32 [0xFF, 0xFF, 0xFF, 0xFF, 0x7F] = .done (-1) 5 := by
  decide

theorem witness_DecodeAssemblesGroups :
    ((∀ c ∈ ([] : List Byte), contBit c = true) ∧ contBit 0x00 = false ∧ ([] : List Byte).length < maxGroups .w32) ∧
      ((∀ c ∈ ([0x80, 0x80, 0x80, 0x80] : List Byte), contBit c = true) ∧ contBit 0x7F = false ∧
        ([0x80, 0x80, 0x80, 0x80] : List Byte).length < maxGroups .w32) := by
  decide

theorem witness_ProperPrefixIsIncomplete : 0 < (enc .w32 0).length ∧ 1 < (enc .w32 128).length ∧ 9 < (enc .w64 (-1)).length := by
  decide

theorem witness_ConsumedCountWalksStream :
    -(2 ^ (widthBits .w32 - 1)) ≤ (300 : Int) ∧ (300 : Int) < 2 ^ (widthBits .w32 - 1) ∧
      -(2 ^ (widthBits .w32 - 1)) ≤ (-1 : Int) ∧ (-1 : Int) < 2 ^ (widthBits .w32 - 1) := by decide

theorem witness_EncodeStartLoadsPattern : (withPins { Pins.quiet with encValue := 5 }).enc.state = .idle := by decide

theorem witness_DecodeStartClearsDecoder :
    State.reset.dec.state ≠ .reading ∧ (endedAt .done .w32 1 0 1 1).dec.state ≠ .reading ∧
      (endedAt (.failed .incomplete) .w32 0x5D 7 1 1).dec.state ≠ .reading := by decide

/-- Both outcomes of the overflow test, at the edge: position 28 + 7 for W = 32 and for W = 64. -/
theorem witness_ContMergesAndAdvances :
    ((readingAt .w32 0 28 4 5 []).dec.state = .reading ∧ (4 : BitVec 4).toNat < 5 ∧ widthBits .w32 ≤ ((28 : BitVec 7) + 7).toNat) ∧
      ((readingAt .w64 0 28 4 5 []).dec.state = .reading ∧ ((28 : BitVec 7) + 7).toNat < widthBits .w64) := by decide

theorem witness_FinalMergesAndEnds :
    (readingAt .w32 0 28 4 5 []).dec.state = .reading ∧
      (readingAt .w32 0 28 4 5 []).dec.cursor.toNat < (readingAt .w32 0 28 4 5 []).dec.len := by decide

theorem witness_InstructionsTurnedAway :
    (emittingAt .w32 0 false).enc.state = .emitting ∧ (readingAt .w32 0 0 0 0 []).dec.state = .reading ∧
      (readingAt .w32 0 0 0 0 []).dec.len ≤ (readingAt .w32 0 0 0 0 []).dec.cursor.toNat ∧
      State.reset.dec.state ≠ .reading := by decide

theorem witness_EncodeCommandsFrame : ∃ t, exec .enc32 State.reset = .next t := ⟨_, rfl⟩

theorem witness_DecoderInstructionsFrame :
    (Instr.final 1 ≠ .enc32 ∧ Instr.final 1 ≠ .enc64 ∧ ∃ t, exec (.final 1) (readingAt .w32 0 0 0 1 []) = .next t) ∧
      (Instr.cont 1 ≠ .enc32 ∧ Instr.cont 1 ≠ .enc64 ∧ ∃ t, exec (.cont 1) (readingAt .w32 0 0 0 1 []) = .next t) :=
  ⟨⟨by decide, by decide, _, rfl⟩, ⟨by decide, by decide, _, rfl⟩⟩

theorem witness_DecodeStartForgetsThePast :
    ∃ t t', State.reset.dec.state ≠ .reading ∧ (endedAt .done .w64 9 7 2 2).dec.state ≠ .reading ∧
      State.reset.pins = (endedAt .done .w64 9 7 2 2).pins ∧
      exec .dec32 State.reset = .next t ∧ exec .dec32 (endedAt .done .w64 9 7 2 2) = .next t' :=
  ⟨_, _, by decide, by decide, rfl, rfl, rfl⟩

/-- A byte to read, a command for ENC, one for DEC, and both at one edge. -/
theorem witness_StepRunsDecodedInstruction :
    ((readingAt .w32 0 0 0 1 [(0, 0x05)]).live ∧ (readingAt .w32 0 0 0 1 [(0, 0x05)]).dec.state = .reading ∧
        (readingAt .w32 0 0 0 1 [(0, 0x05)]).dec.cursor.toNat < 1 ∧
        Memory.read (readingAt .w32 0 0 0 1 [(0, 0x05)]).inMem 0 = some 0x05 ∧
        (readingAt .w32 0 0 0 1 [(0, 0x05)]).enc.state = .idle ∧
        (readingAt .w32 0 0 0 1 [(0, 0x05)]).pins.encStart = false) ∧
      ((withPins { Pins.quiet with encStart := true }).live ∧ (withPins { Pins.quiet with encStart := true }).enc.state = .idle ∧
        (withPins { Pins.quiet with encStart := true }).dec.state ≠ .reading ∧
        (withPins { Pins.quiet with encStart := true }).pins.decStart = false) ∧
      ((withPins { Pins.quiet with decStart := true }).live ∧ (withPins { Pins.quiet with decStart := true }).dec.state ≠ .reading ∧
        (withPins { Pins.quiet with decStart := true }).enc.state = .idle ∧
        (withPins { Pins.quiet with decStart := true }).pins.encStart = false) ∧
      ((withPins { Pins.quiet with encStart := true, decStart := true }).live ∧
        (withPins { Pins.quiet with encStart := true, decStart := true }).enc.state = .idle ∧
        (withPins { Pins.quiet with encStart := true, decStart := true }).dec.state ≠ .reading) := by
  unfold State.live; decide

theorem witness_PlacedWordRunsNext :
    decodeTableWord 2 1 = some .enc64 ∧ decodeTableWord 2 2 = some .dec32 ∧ decodeTableWord 8 0xDD = some (.cont 0x5D) ∧
      decodeTableWord 8 0x04 = some (.final 4) := by decide

theorem witness_StepIsTotalAfterReset :
    State.reset.resetSeen = true ∧ (withPins { Pins.quiet with rst := true }).pins.rst = true ∧
      (({ State.reset with resetSeen := false } : State).resetSeen = false ∧
        ({ State.reset with resetSeen := false } : State).pins.rst = false) := by decide

/-- The largest pattern of the final step. -/
theorem witness_FinalEmitStep :
    (emittingAt .w32 0x7F true).live ∧ (emittingAt .w32 0x7F true).enc.state = .emitting ∧
      (emittingAt .w32 0x7F true).pins.encOutReady = true ∧
      (emittingAt .w32 0x7F true).enc.pat.toNat % 2 ^ widthBits (emittingAt .w32 0x7F true).enc.w < 0x80 := by
  unfold State.live; decide

/-- The smallest pattern of the continuing step. -/
theorem witness_ContinuingEmitStep :
    (emittingAt .w32 0x80 true).live ∧ (emittingAt .w32 0x80 true).enc.state = .emitting ∧
      (emittingAt .w32 0x80 true).pins.encOutReady = true ∧
      0x80 ≤ (emittingAt .w32 0x80 true).enc.pat.toNat % 2 ^ widthBits (emittingAt .w32 0x80 true).enc.w := by
  unfold State.live; decide

theorem witness_OutputHandshake :
    ((emittingAt .w32 0x63DD true).live ∧ (emittingAt .w32 0x63DD true).enc.state = .emitting ∧
        (emittingAt .w32 0x63DD true).pins.encOutReady = true) ∧
      ((emittingAt .w64 1 false).live ∧ (emittingAt .w64 1 false).enc.state = .emitting ∧
        (emittingAt .w64 1 false).pins.encOutReady = false) := by
  unfold State.live; decide

theorem witness_OutputIsAppendOnly : ∃ t, step (emittingAt .w32 0x63DD true) = .next t := ⟨_, rfl⟩

/-- One state for each row: start, stay, exhaustion, FINAL, CONT below the width, CONT at the width. -/
theorem witness_DecoderTransitions :
    ((withPins { Pins.quiet with decStart := true }).live ∧ (withPins { Pins.quiet with decStart := true }).dec.state ≠ .reading) ∧
      (State.reset.live ∧ State.reset.dec.state ≠ .reading ∧ State.reset.pins.decStart = false) ∧
      ((readingAt .w32 0 0 0 0 []).live ∧ (readingAt .w32 0 0 0 0 []).dec.len ≤ (readingAt .w32 0 0 0 0 []).dec.cursor.toNat) ∧
      ((readingAt .w32 0 0 0 1 [(0, 0x7F)]).live ∧ contBit (fetchByte (readingAt .w32 0 0 0 1 [(0, 0x7F)])) = false) ∧
      ((readingAt .w32 0 21 3 9 [(3, 0x80)]).live ∧ contBit (fetchByte (readingAt .w32 0 21 3 9 [(3, 0x80)])) = true ∧
        ((readingAt .w32 0 21 3 9 [(3, 0x80)]).dec.pos + 7).toNat < widthBits .w32) ∧
      ((readingAt .w32 0 28 4 9 [(4, 0x80)]).live ∧ contBit (fetchByte (readingAt .w32 0 28 4 9 [(4, 0x80)])) = true ∧
        widthBits .w32 ≤ ((readingAt .w32 0 28 4 9 [(4, 0x80)]).dec.pos + 7).toNat) := by
  unfold State.live; decide

/-- Reset, and both starts at the next edge. -/
theorem witness_ResetEdgeIdlesBothUnits :
    ∃ t, (withPins { Pins.quiet with rst := true }).pins.rst = true ∧
      step { withPins { Pins.quiet with rst := true } with
        script := [{ stores := [], pins := { Pins.quiet with encStart := true, decStart := true } }] } = .next t ∧
      t.pins.rst = false ∧ t.pins.encStart = true ∧ t.pins.decStart = true :=
  ⟨_, rfl, rfl, rfl, rfl, rfl⟩

theorem witness_BusyUnitsIgnoreTheirPorts :
    ((emittingAt .w32 0x63DD true).live ∧ (emittingAt .w32 0x63DD true).enc.state = .emitting) ∧
      ((readingAt .w32 0 0 0 3 []).live ∧ (readingAt .w32 0 0 0 3 []).dec.state = .reading) := by
  unfold State.live; decide

/-- The same encoder beside an idle decoder and beside a running one. -/
theorem witness_EncoderIgnoresDecoder :
    ∃ t t', (emittingAt .w32 0x63DD true).live ∧
      ({ emittingAt .w32 0x63DD true with dec := (readingAt .w32 0 0 0 3 []).dec, inMem := [(0, 5)] } : State).live ∧
      step (emittingAt .w32 0x63DD true) = .next t ∧
      step { emittingAt .w32 0x63DD true with dec := (readingAt .w32 0 0 0 3 []).dec, inMem := [(0, 5)] } = .next t' :=
  ⟨_, _, ⟨rfl, rfl⟩, ⟨rfl, rfl⟩, rfl, rfl⟩

/-- The same decoder, slices equal below the bound and not beyond it. -/
theorem witness_DecoderIgnoresEncoderAndBeyondBound :
    ∃ t t', (readingAt .w32 0 0 0 1 [(0, 0x80)]).live ∧ (readingAt .w32 0 0 0 1 [(0, 0x80), (1, 0xFF)]).live ∧
      (∀ a, a < 1 → ∃ b, Memory.read [(0, 0x80)] a = some b ∧ Memory.read [(0, 0x80), (1, 0xFF)] a = some b) ∧
      step (readingAt .w32 0 0 0 1 [(0, 0x80)]) = .next t ∧ step (readingAt .w32 0 0 0 1 [(0, 0x80), (1, 0xFF)]) = .next t' :=
  ⟨_, _, ⟨rfl, rfl⟩, ⟨rfl, rfl⟩, by decide, rfl, rfl⟩

theorem witness_OnlyHostStoresToInput :
    (∃ t, step State.reset = .next t ∧ State.reset.script = []) ∧
      (∃ t, step { State.reset with script := [{ stores := [(0, 0x7F), (0, 0x80), (1, 0x01)], pins := Pins.quiet }] } = .next t ∧
        ([(0, 0x7F), (0, 0x80), (1, 0x01)] : List Host.Cell) = [(0, 0x7F)] ++ (0, 0x80) :: [(1, 0x01)] ∧
        (∀ c ∈ ([(1, 0x01)] : List Host.Cell), c.1 ≠ 0) ∧ t.dec.cursor.toNat = 0) :=
  ⟨⟨_, rfl, rfl⟩, ⟨_, rfl, rfl, by decide, rfl⟩⟩

theorem witness_HostMovesReachNoRegister :
    ∃ t t', step State.reset = .next t ∧
      step { State.reset with script := [{ stores := [(0, 1)], pins := { Pins.quiet with decStart := true } }] } = .next t' :=
  ⟨_, _, rfl, rfl⟩

/-- A result over two edges, the ports of the third already raising reset and a start. -/
def keptResult : State :=
  { endedAt .done .w32 0x63DD 14 3 3 with
    script :=
      [{ stores := [(0, 1)], pins := { Pins.quiet with encStart := true } },
        { stores := [], pins := { Pins.quiet with rst := true, decStart := true } }] }

theorem witness_ResultStaysReadable :
    keptResult.live ∧ keptResult.dec.state ≠ .reading ∧ keptResult.pins.decStart = false ∧
      noReset (keptResult.script.take (2 - 1)) ∧ (∀ m ∈ keptResult.script.take (2 - 1), m.pins.decStart = false) := by
  unfold State.live noReset; decide

/-- A legal state in the middle of both operations, at the last read of a DEC32. -/
def busyLegal : State :=
  { readingAt .w32 0x0FFFFFFF 28 4 5 [(4, 0x0F)] with
    enc := { state := .emitting, w := .w32, pat := 0xC7 },
    outSeq := [{ byte := 0xDD, last := false }] }

theorem busyLegal_inv : busyLegal.Inv := by
  unfold State.Inv State.EncInv
  refine ⟨?_, ?_, ?_⟩
  · show _ ∧ _
    decide
  · refine ⟨by decide, ?_⟩
    show _ ∧ _
    decide
  · decide

/-- A CONT byte as the fifth, and the exhaustion step after two. -/
theorem witness_FailuresArise :
    (∃ t, ({ busyLegal with inMem := [(4, 0x8F)] } : State).Inv ∧
        step { busyLegal with inMem := [(4, 0x8F)] } = .next t ∧ t.dec.state = .failed .tooLarge) ∧
      (∃ t, (readingAt .w32 0x23DD 14 2 2 []).Inv ∧ step (readingAt .w32 0x23DD 14 2 2 []) = .next t ∧
        t.dec.state = .failed .incomplete) := by
  refine ⟨⟨_, ?_, rfl, rfl⟩, ⟨_, ?_, rfl, rfl⟩⟩
  · refine ⟨busyLegal_inv.1, busyLegal_inv.2.1, ?_⟩
    decide
  · refine ⟨?_, ⟨by decide, trivial⟩, by decide⟩
    show _ ∧ _
    decide

theorem witness_TooLargeExactlyOnFullContinuation :
    ∃ t, ({ busyLegal with inMem := [(4, 0x8F)] } : State).Inv ∧ busyLegal.dec.state = .reading ∧
      step { busyLegal with inMem := [(4, 0x8F)] } = .next t ∧ t.dec.state = .failed .tooLarge :=
  ⟨_, ⟨busyLegal_inv.1, busyLegal_inv.2.1, by decide⟩, rfl, rfl, rfl⟩

theorem witness_StepKeepsLegal : ∃ t, busyLegal.Inv ∧ step busyLegal = .next t := ⟨_, busyLegal_inv, rfl⟩

theorem witness_ReadsAndShiftsStayInBounds : busyLegal.Inv ∧ decRdEnPort busyLegal = true := ⟨busyLegal_inv, rfl⟩

theorem witness_MergeIsCarryFree : busyLegal.Inv ∧ decRdEnPort busyLegal = true := ⟨busyLegal_inv, rfl⟩

theorem witness_OverflowVariantsAgree : busyLegal.Inv ∧ busyLegal.dec.state = .reading := ⟨busyLegal_inv, rfl⟩

theorem witness_ValuePortIsSigned :
    ((endedAt .done .w32 0x80000000 28 5 5).dec.state = .done ∧ (endedAt .done .w32 0x80000000 28 5 5).dec.w = .w32) ∧
      ((endedAt .done .w64 0x80000000 28 5 5).dec.state = .done ∧ (endedAt .done .w64 0x80000000 28 5 5).dec.w = .w64) := by
  decide

theorem witness_PortsDefinedOnlyWhenStated :
    State.reset.dec.state ≠ .done ∧ (endedAt .done .w32 0 0 1 1).dec.state = .done ∧ decRdEnPort State.reset = false ∧
      decRdEnPort (readingAt .w32 0 0 0 1 []) = true ∧ encOutValidPort State.reset = false ∧
      encOutValidPort (emittingAt .w32 0x63DD false) = true := by
  decide

/-- ENC32 25565 with HOST ready at three of the four edges that follow, and a reset after those. -/
def encodeRun : State :=
  { withPins { Pins.quiet with encStart := true, encValue := 0xDEADBEEF000063DD } with
    script :=
      [⟨[], { Pins.quiet with encOutReady := true }⟩, ⟨[], Pins.quiet⟩, ⟨[], { Pins.quiet with encOutReady := true }⟩,
        ⟨[], { Pins.quiet with encOutReady := true }⟩, ⟨[], { Pins.quiet with rst := true }⟩] }

theorem witness_EncodeOperationEmitsEnc :
    encodeRun.live ∧ encodeRun.enc.state = .idle ∧ encodeRun.pins.encStart = true ∧ encodeRun.pins.encW64 = widthBit .w32 ∧
      truncW .w32 encodeRun.pins.encValue = patternW .w32 25565 ∧ noReset (encodeRun.script.take 4) ∧
      (enc .w32 25565).length ≤ readyEdges (encodeRun.script.take 4) := by
  unfold State.live noReset; decide

/-- DEC32 of DD C7 01 in a longer buffer, ENC started meanwhile, the slice stored to and a reset raised once it has ended. -/
def decodeRun : State :=
  { withPins { Pins.quiet with decStart := true, decLen := 3 } with
    inMem := [(0, 0xDD), (1, 0xC7), (2, 0x01), (3, 0xAA)],
    script :=
      [⟨[], { Pins.quiet with encStart := true }⟩, ⟨[], Pins.quiet⟩, ⟨[], Pins.quiet⟩,
        ⟨[(0, 0x00)], { Pins.quiet with rst := true }⟩] }

theorem witness_DecodeOperationComputesDec :
    decodeRun.live ∧ decodeRun.dec.state ≠ .reading ∧ decodeRun.pins.decStart = true ∧ decodeRun.pins.decW64 = widthBit .w32 ∧
      decodeRun.pins.decLen = ([0xDD, 0xC7, 0x01] : List Byte).length ∧ holdsSlice decodeRun.inMem [0xDD, 0xC7, 0x01] ∧
      noReset (decodeRun.script.take (decSteps .w32 [0xDD, 0xC7, 0x01])) ∧
      slicesKept (decodeRun.script.take (decSteps .w32 [0xDD, 0xC7, 0x01])) := by
  unfold State.live noReset slicesKept holdsSlice; decide

/-- The number of steps for each kind of result: D32-7, D32-1, D32-8 and D32-22. -/
theorem test_dec_steps :
    decSteps .w32 [0xDD, 0xC7, 0x01] = 3 ∧ decSteps .w32 [] = 1 ∧ decSteps .w32 [0xDD, 0xC7] = 3 ∧
      decSteps .w32 [0x80, 0x80, 0x80, 0x80, 0x80, 0x00] = 5 := by
  decide

/-- A DEC64 of a slice HOST never supplied, that it stores to while the decode runs, and that it cuts by a reset after two moves. -/
def changedRun : State :=
  { withPins { Pins.quiet with decStart := true, decW64 := true, decLen := 12 } with
    script := [⟨[(0, 0x80)], Pins.quiet⟩, ⟨[(0, 0x81), (1, 0x80)], Pins.quiet⟩, ⟨[], { Pins.quiet with rst := true }⟩] }

theorem witness_DecodeResultIsOfBytesRead :
    changedRun.live ∧ changedRun.dec.state ≠ .reading ∧ changedRun.pins.decStart = true ∧
      changedRun.pins.decW64 = widthBit .w64 ∧ noReset (changedRun.script.take 2) := by
  unfold State.live noReset; decide

end Sys2Proof.Tests
end

section
/-! PROOFS. The functions `enc` and `dec` of whole operations as facts about numbers (R54, R70, R77, R90), and the canonical
encoding (R56). Both directions speak of a sequence as CONT bytes `cs` with one FINAL byte `f` after them, the shape of R52. -/

namespace Sys2Proof.Machine

/-! ### Numbers of groups, and value assembly -/

theorem lt_maxGroups_iff {w : Width} {k : Nat} : k < maxGroups w ↔ 7 * k < widthBits w := by
  cases w <;> simp <;> omega

theorem two_pow_seven_mul_succ (k : Nat) : 2 ^ (7 * (k + 1)) = 2 ^ (7 * k) * 2 ^ 7 := by rw [Nat.mul_succ, Nat.pow_add]

@[simp] theorem assemble_singleton (b : Byte) : assemble [b] = (byteGroup b).toNat := by simp [assemble]

theorem assemble_lt (bs : List Byte) : assemble bs < 2 ^ (7 * bs.length) := by
  induction bs with
  | nil => simp [assemble]
  | cons b bs ih =>
    have hb := (byteGroup b).isLt
    rw [assemble, List.length_cons, two_pow_seven_mul_succ]
    omega

/-! ### The encode loop -/

theorem encLoop_of_more {w : Width} {p : Word} (h : more w p = true) (n : Nat) :
    encLoop w (n + 1) p = pack true (group p) :: encLoop w n (p >>> 7) := by
  simp [encLoop, h]

theorem encLoop_of_not_more {w : Width} {p : Word} (h : more w p = false) (n : Nat) :
    encLoop w (n + 1) p = [pack false (group p)] := by
  simp [encLoop, h]

theorem ushiftRight_seven_toNat (p : Word) : (p >>> 7).toNat = p.toNat / 2 ^ 7 := by
  rw [BitVec.toNat_ushiftRight, Nat.shiftRight_eq_div_pow]

/-- A continuing emit step leaves at least one group, and uses up one of the groups that bound the pattern (R73). -/
theorem groups_left_of_more {w : Width} {p : Word} {k : Nat} (hm : more w p = true) (hp : p.toNat < 2 ^ (7 * (k + 1))) :
    1 ≤ k ∧ (p >>> 7).toNat < 2 ^ (7 * k) := by
  have hbig : 0x80 ≤ p.toNat := ((more_iff w p).1 hm).trans (Nat.mod_le _ _)
  rw [two_pow_seven_mul_succ] at hp
  constructor
  · exact Nat.pos_of_ne_zero fun h => by subst h; omega
  · rw [ushiftRight_seven_toNat]; omega

/-- A pattern below 2^(7k) takes at most k bytes (R77). -/
theorem encLoop_length_le {w : Width} {n : Nat} {p : Word} {k : Nat} (hk : 1 ≤ k) (hp : p.toNat < 2 ^ (7 * k)) :
    (encLoop w n p).length ≤ k := by
  induction n generalizing p k with
  | zero => simp [encLoop]
  | succ n ih =>
    cases hm : more w p with
    | false => simpa [encLoop_of_not_more hm] using hk
    | true =>
      obtain ⟨j, rfl⟩ : ∃ j, k = j + 1 := ⟨k - 1, by omega⟩
      obtain ⟨hj, hs⟩ := groups_left_of_more hm hp
      simpa [encLoop_of_more hm] using ih hj hs

/-- Enough turns on a W-bit pattern give CONT bytes and one FINAL byte, whose groups assemble to the pattern; the last group is
0 only for the pattern 0. -/
theorem encLoop_shape {w : Width} {n : Nat} {p : Word} (hn : 1 ≤ n) (hp : p.toNat < 2 ^ (7 * n))
    (hw : p.toNat < 2 ^ widthBits w) :
    ∃ cs f, encLoop w n p = cs ++ [f] ∧ (∀ c ∈ cs, contBit c = true) ∧ contBit f = false ∧
      assemble (cs ++ [f]) = p.toNat ∧ (p.toNat ≠ 0 → byteGroup f ≠ 0) := by
  induction n generalizing p with
  | zero => omega
  | succ n ih =>
    have hg := group_toNat p
    cases hm : more w p with
    | false =>
      have hsmall : p.toNat < 0x80 := by
        rw [more_eq_false_iff, Nat.mod_eq_of_lt hw] at hm; exact hm
      refine ⟨[], pack false (group p), encLoop_of_not_more hm n, by simp, by simp, ?_, ?_⟩
      · rw [List.nil_append, assemble_singleton, byteGroup_pack]; omega
      · rw [byteGroup_pack]
        intro hne h0
        have h0' : (group p).toNat = 0 := congrArg BitVec.toNat h0
        omega
    | true =>
      have hbig : 0x80 ≤ p.toNat := ((more_iff w p).1 hm).trans (Nat.mod_le _ _)
      have hdiv := ushiftRight_seven_toNat p
      obtain ⟨hn', hp'⟩ := groups_left_of_more hm hp
      obtain ⟨cs, f, heq, hcs, hf, hval, hlast⟩ := ih hn' hp' (by omega)
      refine ⟨pack true (group p) :: cs, f, by simp [encLoop_of_more hm, heq], by simpa using hcs, hf, ?_, ?_⟩
      · simp only [List.cons_append, assemble, byteGroup_pack, hval]; omega
      · exact fun _ => hlast (by omega)

theorem patternW_lt_groups (w : Width) (v : Int) : (patternW w v).toNat < 2 ^ (7 * maxGroups w) :=
  (patternW_lt w v).trans_le (Nat.pow_le_pow_right (by decide) (by cases w <;> simp))

/-- The smallest number of groups that holds the pattern bounds the length (R77). -/
theorem enc_length_le {w : Width} {v : Int} {k : Nat} (hk : 1 ≤ k) (hp : (patternW w v).toNat < 2 ^ (7 * k)) :
    (enc w v).length ≤ k :=
  encLoop_length_le hk hp

/-- The shape of an encoding (R52, R56, R70). -/
theorem enc_shape (w : Width) (v : Int) :
    ∃ cs f, enc w v = cs ++ [f] ∧ (∀ c ∈ cs, contBit c = true) ∧ contBit f = false ∧ cs.length < maxGroups w ∧
      assemble (cs ++ [f]) = (patternW w v).toNat ∧ ((patternW w v).toNat ≠ 0 → byteGroup f ≠ 0) := by
  have hG : 1 ≤ maxGroups w := by cases w <;> simp
  have hlen := enc_length_le hG (patternW_lt_groups w v)
  obtain ⟨cs, f, heq, hcs, hf, hval, hlast⟩ := encLoop_shape hG (patternW_lt_groups w v) (patternW_lt w v)
  refine ⟨cs, f, heq, hcs, hf, ?_, hval, hlast⟩
  rw [enc, heq] at hlen
  simpa using hlen

theorem enc_of_pattern_zero {w : Width} {v : Int} (h : (patternW w v).toNat = 0) : enc w v = [0x00] := by
  have h0 : patternW w v = 0 := BitVec.eq_of_toNat_eq h
  rw [enc, h0]
  cases w <;> decide

/-! ### The decode loop -/

theorem decLoop_of_final {t : OverflowTest} {w : Width} {b : Byte} (hb : contBit b = false) (acc : Word) (pos cur : Nat)
    (rest : List Byte) :
    decLoop t w acc pos cur (b :: rest) = .done (signedW w (mergeGroup w acc (byteGroup b) pos)) (cur + 1) := by
  simp [decLoop, hb]

theorem decLoop_of_cont {w : Width} {b : Byte} {pos : Nat} (hb : contBit b = true) (hpos : pos + 7 < widthBits w) (acc : Word)
    (cur : Nat) (rest : List Byte) :
    decLoop Config.overflowTest w acc pos cur (b :: rest) =
      decLoop Config.overflowTest w (mergeGroup w acc (byteGroup b) pos) (pos + 7) (cur + 1) rest := by
  simp [decLoop, hb, hpos]

theorem decLoop_of_overflow {w : Width} {b : Byte} {pos : Nat} (hb : contBit b = true) (hpos : widthBits w ≤ pos + 7)
    (acc : Word) (cur : Nat) (rest : List Byte) :
    decLoop Config.overflowTest w acc pos cur (b :: rest) = .failed .tooLarge := by
  simp [decLoop, hb, hpos]

/-- With no bit of the accumulator at or above the position, the merge adds the group at its weight (R54, R93). -/
theorem mergeGroup_toNat_eq_add {w : Width} {acc : Word} {pos : Nat} (h : acc.toNat < 2 ^ pos) (g : Group) :
    (mergeGroup w acc g pos).toNat = (acc.toNat + 2 ^ pos * g.toNat) % 2 ^ widthBits w := by
  rw [mergeGroup_toNat, or_shift_eq_add h, Nat.shiftLeft_eq, Nat.mul_comm]

theorem add_group_lt {acc pos : Nat} (h : acc < 2 ^ pos) (g : Group) : acc + 2 ^ pos * g.toNat < 2 ^ (pos + 7) :=
  calc acc + 2 ^ pos * g.toNat < 2 ^ pos * (g.toNat + 1) := by rw [Nat.mul_succ]; omega
    _ ≤ 2 ^ pos * 2 ^ 7 := Nat.mul_le_mul_left _ g.isLt
    _ = 2 ^ (pos + 7) := (Nat.pow_add ..).symm

/-- CONT bytes below the bound and a FINAL byte give Done with the assembled groups above what the accumulator holds (R54, R90). -/
theorem decLoop_assembles {w : Width} {cs : List Byte} {f : Byte} (hcs : ∀ c ∈ cs, contBit c = true) (hf : contBit f = false)
    {acc : Word} {pos : Nat} (hacc : acc.toNat < 2 ^ pos) (hpos : pos + 7 * cs.length < widthBits w) (cur : Nat)
    (rest : List Byte) :
    decLoop Config.overflowTest w acc pos cur (cs ++ f :: rest) =
      .done (signedW w (BitVec.ofNat 64 ((acc.toNat + 2 ^ pos * assemble (cs ++ [f])) % 2 ^ widthBits w)))
        (cur + (cs.length + 1)) := by
  induction cs generalizing acc pos cur with
  | nil =>
    rw [List.nil_append, List.nil_append, decLoop_of_final hf, assemble_singleton, ← mergeGroup_toNat_eq_add hacc]
    simp
  | cons c cs ih =>
    obtain ⟨hc, hcs'⟩ := List.forall_mem_cons.1 hcs
    rw [List.length_cons] at hpos
    have hlt := add_group_lt hacc (byteGroup c)
    have hmerge : (mergeGroup w acc (byteGroup c) pos).toNat = acc.toNat + 2 ^ pos * (byteGroup c).toNat := by
      rw [mergeGroup_toNat_eq_add hacc]
      exact Nat.mod_eq_of_lt (hlt.trans_le (Nat.pow_le_pow_right (by decide) (by omega)))
    have hsum : acc.toNat + 2 ^ pos * (byteGroup c).toNat + 2 ^ (pos + 7) * assemble (cs ++ [f]) =
        acc.toNat + 2 ^ pos * assemble (c :: cs ++ [f]) := by
      rw [List.cons_append, assemble, Nat.pow_add]; ring
    rw [List.cons_append, decLoop_of_cont hc (by omega), ih hcs' (hmerge ▸ hlt) (by omega), hmerge, hsum, List.length_cons]
    congr 1; omega

/-- Done comes from nothing but CONT bytes below the bound and a FINAL byte. -/
theorem decLoop_done_shape {w : Width} {bs : List Byte} {acc : Word} {pos cur : Nat} {v : Int} {n : Nat}
    (hpos : pos < widthBits w) (h : decLoop Config.overflowTest w acc pos cur bs = .done v n) :
    ∃ cs f rest, bs = cs ++ f :: rest ∧ (∀ c ∈ cs, contBit c = true) ∧ contBit f = false ∧
      pos + 7 * cs.length < widthBits w ∧ n = cur + (cs.length + 1) := by
  induction bs generalizing acc pos cur with
  | nil => simp [decLoop] at h
  | cons b bs ih =>
    cases hb : contBit b with
    | false =>
      rw [decLoop_of_final hb] at h
      injection h with _ hn
      exact ⟨[], b, bs, rfl, by simp, hb, by simpa using hpos, hn.symm⟩
    | true =>
      by_cases hov : widthBits w ≤ pos + 7
      · rw [decLoop_of_overflow hb hov] at h
        cases h
      · rw [decLoop_of_cont hb (by omega)] at h
        obtain ⟨cs, f, rest, rfl, hcs, hf, hlen, rfl⟩ := ih (by omega) h
        refine ⟨b :: cs, f, rest, rfl, List.forall_mem_cons.2 ⟨hb, hcs⟩, hf, ?_, ?_⟩ <;> rw [List.length_cons] <;> omega

/-- Value assembly on a whole slice (R54, R58). -/
theorem dec_assembles {w : Width} {cs : List Byte} {f : Byte} (hcs : ∀ c ∈ cs, contBit c = true) (hf : contBit f = false)
    (hlen : cs.length < maxGroups w) (rest : List Byte) :
    dec w (cs ++ f :: rest) =
      .done (signedW w (BitVec.ofNat 64 (assemble (cs ++ [f]) % 2 ^ widthBits w))) (cs.length + 1) := by
  have hpos : 0 + 7 * cs.length < widthBits w := by rw [Nat.zero_add]; exact lt_maxGroups_iff.1 hlen
  simpa [dec, decWith] using decLoop_assembles hcs hf (acc := 0) (by decide) hpos 0 rest

/-- The slices that give Done are those that start with CONT bytes below the bound and a FINAL byte. -/
theorem dec_done_shape {w : Width} {bs : List Byte} {v : Int} {n : Nat} (h : dec w bs = .done v n) :
    ∃ cs f rest, bs = cs ++ f :: rest ∧ (∀ c ∈ cs, contBit c = true) ∧ contBit f = false ∧ cs.length < maxGroups w ∧
      n = cs.length + 1 := by
  obtain ⟨cs, f, rest, hbs, hcs, hf, hlen, hn⟩ := decLoop_done_shape (by cases w <;> simp) h
  exact ⟨cs, f, rest, hbs, hcs, hf, lt_maxGroups_iff.2 (by omega), by omega⟩

/-- The value of a Done fits in the groups that were consumed for it. -/
theorem pattern_lt_of_dec_done {w : Width} {bs : List Byte} {p : Word} {n : Nat} (h : dec w bs = .done (signedW w p) n) :
    1 ≤ n ∧ (truncW w p).toNat < 2 ^ (7 * n) := by
  obtain ⟨cs, f, rest, rfl, hcs, hf, hlen, rfl⟩ := dec_done_shape h
  refine ⟨Nat.succ_pos _, ?_⟩
  rw [dec_assembles hcs hf hlen] at h
  injection h with hval
  have hmod : truncW w p = truncW w (BitVec.ofNat 64 (assemble (cs ++ [f]) % 2 ^ widthBits w)) := by
    rw [← patternW_signedW, ← patternW_signedW, hval]
  calc (truncW w p).toNat ≤ assemble (cs ++ [f]) := by
        rw [hmod, truncW_toNat, BitVec.toNat_ofNat]
        exact (Nat.mod_le _ _).trans ((Nat.mod_le _ _).trans (Nat.mod_le _ _))
    _ < 2 ^ (7 * (cs.length + 1)) := by simpa using assemble_lt (cs ++ [f])

/-! ### The canonical encoding -/

/-- The encoding decodes to the signed reading of the pattern, whatever bytes follow (R55, R56). -/
theorem dec_enc_append (w : Width) (v : Int) (rest : List Byte) :
    dec w (enc w v ++ rest) = .done (signedW w (patternW w v)) (enc w v).length := by
  obtain ⟨cs, f, heq, hcs, hf, hlen, hval, -⟩ := enc_shape w v
  rw [heq, List.append_assoc, List.singleton_append, dec_assembles hcs hf hlen, hval, Nat.mod_eq_of_lt (patternW_lt w v)]
  simp

theorem enc_last_group_ne_zero {w : Width} {v : Int} (h : (patternW w v).toNat ≠ 0) :
    ∃ f, (enc w v).getLast? = some f ∧ contBit f = false ∧ byteGroup f ≠ 0 := by
  obtain ⟨cs, f, heq, -, hf, -, -, hlast⟩ := enc_shape w v
  exact ⟨f, by simp [heq], hf, hlast h⟩

/-- No sequence that decodes to the value of a pattern is shorter than its encoding. -/
theorem enc_length_le_of_dec_done {w : Width} {v : Int} {bs : List Byte} {n : Nat}
    (h : dec w bs = .done (signedW w (patternW w v)) n) : (enc w v).length ≤ n := by
  obtain ⟨hn, hlt⟩ := pattern_lt_of_dec_done h
  rw [truncW_of_lt (patternW_lt w v)] at hlt
  exact enc_length_le hn hlt

/-- Settles O6: the encoding assembles to the pattern with a last group other than 0, and what n groups decode to lies below
2^(7n), which bounds the length of its encoding by n. -/
theorem encodeMinimal : Obligations.EncodeMinimal := fun w v =>
  ⟨by simpa using dec_enc_append w v [], enc_last_group_ne_zero, enc_of_pattern_zero, fun _ _ => enc_length_le_of_dec_done⟩

end Sys2Proof.Machine
end

section
/-! PROOFS. The emit steps of ENC at an edge with HOST ready (R72, R73, R123). -/

namespace Sys2Proof.Machine

/-- A wire byte as the number of the pattern it is taken from (R50). -/
theorem pack_group_eq_ofNat (c : Bool) (p : Word) :
    pack c (group p) = BitVec.ofNat 8 ((if c then 0x80 else 0) + p.toNat % 0x80) := by
  have hg : (group p).toNat = p.toNat % 0x80 := group_toNat p
  rw [← hg, ← pack_toNat, BitVec.ofNat_toNat, BitVec.setWidth_eq]

theorem encEmit_of_more {s : State} (h : more s.enc.w s.enc.pat = true) : encEmit s = encEmitCont s := by
  simp [encEmit, h]

theorem encEmit_of_not_more {s : State} (h : more s.enc.w s.enc.pat = false) : encEmit s = encEmitFinal s := by
  simp [encEmit, h]

theorem encNext_of_ready {s : State} (he : s.enc.state = .emitting) (hr : s.pins.encOutReady = true) :
    encNext s = encEmit s := by
  simp [encNext, he, hr]

/-- A live edge that takes a byte makes of ENC and OUT what the emit step makes of them: neither DEC nor HOST's move touches
them (R121, R132). -/
theorem step_of_ready {s : State} (hl : s.live) (he : s.enc.state = .emitting) (hr : s.pins.encOutReady = true) :
    ∃ t, step s = .next t ∧ sameEncSide (encEmit s) t := by
  refine ⟨_, step_of_live hl, ?_⟩
  rw [encNext_of_ready he hr]
  exact ⟨by simp, by simp, by simp⟩

/-- Settles O29: a pattern below 0x80 makes the emit step the final one. -/
theorem finalEmitStep : Obligations.FinalEmitStep := by
  intro s hl he hr hpat
  obtain ⟨t, ht, henc, hout, hbase⟩ := step_of_ready hl he hr
  rw [encEmit_of_not_more ((more_eq_false_iff _ _).2 hpat)] at henc hout hbase
  refine ⟨t, ht, henc, hbase, ?_⟩
  rw [hout, encEmitFinal_outSeq, pack_group_eq_ofNat]
  simp

/-- Settles O30: a pattern of 0x80 or more makes the emit step the continuing one. -/
theorem continuingEmitStep : Obligations.ContinuingEmitStep := by
  intro s hl he hr hpat
  obtain ⟨t, ht, henc, hout, hbase⟩ := step_of_ready hl he hr
  rw [encEmit_of_more ((more_iff _ _).2 hpat)] at henc hout hbase
  refine ⟨t, ht, by simp [henc, he], by simp [henc], hbase, ?_, ?_⟩
  · rw [henc, encEmitCont_enc, shiftOut_toNat]
  · rw [hout, encEmitCont_outSeq, pack_group_eq_ofNat]
    simp

end Sys2Proof.Machine
end

section
/-! PROOFS. The round trip (R105): a canonical sequence that is not over-wide is what the encode loop makes of its assembled
groups, so it is the encoding of the value it decodes to. -/

namespace Sys2Proof.Machine

/-! ### The canonical form of a byte sequence (R56) -/

theorem decodeWire_of_cont {b : Byte} (h : contBit b = true) : decodeWire b = .cont (byteGroup b) := by
  simp [decodeWire, h]

theorem decodeWire_of_final {b : Byte} (h : contBit b = false) : decodeWire b = .final (byteGroup b) := by
  simp [decodeWire, h]

theorem wireShape_map_decodeWire {cs : List Byte} {f : Byte} (hcs : ∀ c ∈ cs, contBit c = true) (hf : contBit f = false) :
    wireShape ((cs ++ [f]).map decodeWire) = true := by
  induction cs with
  | nil => simp [decodeWire_of_final hf, wireShape]
  | cons c cs ih =>
    obtain ⟨hc, hcs'⟩ := List.forall_mem_cons.1 hcs
    simpa [decodeWire_of_cont hc, wireShape] using ih hcs'

theorem lastNonzero_concat (is : List Instr) (i : Instr) : lastNonzero (is ++ [i]) = finalNonzero i := by
  induction is with
  | nil => rfl
  | cons j is ih => cases is <;> exact ih

/-- CONT bytes with a FINAL byte after them are canonical when they are within G(W) bytes and the last group is not 0, unless
there is one byte only (R52, R56). -/
theorem canonicalWf_map_decodeWire_iff {w : Width} {cs : List Byte} {f : Byte} (hcs : ∀ c ∈ cs, contBit c = true)
    (hf : contBit f = false) :
    canonicalWf w ((cs ++ [f]).map decodeWire) = true ↔ cs.length < maxGroups w ∧ (cs = [] ∨ byteGroup f ≠ 0) := by
  have hshape := wireShape_map_decodeWire hcs hf
  have hlast : lastNonzero ((cs ++ [f]).map decodeWire) = decide (byteGroup f ≠ 0) := by
    simp [lastNonzero_concat, decodeWire_of_final hf, finalNonzero]
  rw [canonicalWf, encodedIntegerWf, hshape, hlast]
  simp

/-- Every encoding is canonical (R56, R70). -/
theorem enc_canonicalWf (w : Width) (v : Int) : canonicalWf w ((enc w v).map decodeWire) = true := by
  by_cases h0 : (patternW w v).toNat = 0
  · rw [enc_of_pattern_zero h0]
    cases w <;> decide
  · obtain ⟨cs, f, heq, hcs, hf, hlen, -, hlast⟩ := enc_shape w v
    rw [heq, canonicalWf_map_decodeWire_iff hcs hf]
    exact ⟨hlen, .inr (hlast h0)⟩

theorem assemble_enc (w : Width) (v : Int) : assemble (enc w v) = (patternW w v).toNat := by
  obtain ⟨cs, f, heq, -, -, -, hval, -⟩ := enc_shape w v
  rw [heq, hval]

/-! ### From a canonical sequence back to the encode loop -/

theorem pack_of_contBit_eq {c : Bool} {b : Byte} (h : contBit b = c) : pack c (byteGroup b) = b := by
  rw [← h, pack_contBit_byteGroup]

/-- The low group of a pattern whose number begins with the group of `b`. -/
theorem group_eq_byteGroup {p : Word} {b : Byte} {q : Nat} (h : p.toNat = (byteGroup b).toNat + 2 ^ 7 * q) :
    group p = byteGroup b := by
  apply BitVec.eq_of_toNat_eq
  have hb := (byteGroup b).isLt
  rw [group_toNat]; omega

theorem assemble_concat_pos {cs : List Byte} {f : Byte} (hf : byteGroup f ≠ 0) : 0 < assemble (cs ++ [f]) := by
  induction cs with
  | nil =>
    rw [List.nil_append, assemble_singleton]
    exact Nat.pos_of_ne_zero fun h => hf (BitVec.eq_of_toNat_eq h)
  | cons c cs ih => rw [List.cons_append, assemble]; omega

/-- The encode loop on the assembled groups of a canonical sequence gives the sequence: a group other than 0 at the end keeps
`more` true up to it (R54, R56, R70). -/
theorem encLoop_of_assemble {w : Width} {n : Nat} {p : Word} {cs : List Byte} {f : Byte} (hcs : ∀ c ∈ cs, contBit c = true)
    (hf : contBit f = false) (hlast : cs = [] ∨ byteGroup f ≠ 0) (hlen : cs.length < n) (hw : p.toNat < 2 ^ widthBits w)
    (hp : p.toNat = assemble (cs ++ [f])) : encLoop w n p = cs ++ [f] := by
  obtain ⟨n, rfl⟩ : ∃ m, n = m + 1 := ⟨n - 1, by omega⟩
  induction cs generalizing n p with
  | nil =>
    rw [List.nil_append, assemble_singleton] at hp
    have hg := (byteGroup f).isLt
    have hm : more w p = false := by rw [more_eq_false_iff, Nat.mod_eq_of_lt hw]; omega
    rw [encLoop_of_not_more hm, group_eq_byteGroup (b := f) (q := 0) (by omega), pack_of_contBit_eq hf, List.nil_append]
  | cons c cs ih =>
    obtain ⟨hc, hcs'⟩ := List.forall_mem_cons.1 hcs
    have hf0 : byteGroup f ≠ 0 := hlast.resolve_left (by simp)
    have hpos := assemble_concat_pos (cs := cs) hf0
    rw [List.cons_append, assemble] at hp
    have hm : more w p = true := by rw [more_iff, Nat.mod_eq_of_lt hw]; omega
    have hg := (byteGroup c).isLt
    have hrest : (p >>> 7).toNat = assemble (cs ++ [f]) := by rw [ushiftRight_seven_toNat]; omega
    rw [List.length_cons] at hlen
    obtain ⟨m, rfl⟩ : ∃ m, n = m + 1 := ⟨n - 1, by omega⟩
    rw [encLoop_of_more hm, group_eq_byteGroup hp, pack_of_contBit_eq hc, ih hcs' (.inr hf0) (by omega) hrest m (by omega),
      List.cons_append]

/-! ### The value of a Done -/

/-- The reading of a pattern looks at its low W bits only (R55). -/
theorem signedW_truncW (w : Width) (p : Word) : signedW w (truncW w p) = signedW w p := by
  rw [signedW_eq, signedW_eq, truncW_toNat, Nat.mod_mod]

/-- What a Done has consumed, and the value it gives for it (R54, R58, R90). -/
theorem dec_done_consumed {w : Width} {bs : List Byte} {v : Int} {n : Nat} (h : dec w bs = .done v n) :
    ∃ cs f, bs.take n = cs ++ [f] ∧ (∀ c ∈ cs, contBit c = true) ∧ contBit f = false ∧
      v = signedW w (BitVec.ofNat 64 (assemble (bs.take n) % 2 ^ widthBits w)) := by
  obtain ⟨cs, f, rest, rfl, hcs, hf, hlen, rfl⟩ := dec_done_shape h
  have htake : (cs ++ f :: rest).take (cs.length + 1) = cs ++ [f] := by
    rw [List.append_cons, List.take_left' (by simp)]
  rw [dec_assembles hcs hf hlen] at h
  injection h with hv
  exact ⟨cs, f, htake, hcs, hf, by rw [htake, hv]⟩

/-- A value that was decoded survives the way to its pattern and back. -/
theorem signedW_patternW_of_dec_done {w : Width} {bs : List Byte} {v : Int} {n : Nat} (h : dec w bs = .done v n) :
    signedW w (patternW w v) = v := by
  obtain ⟨-, -, -, -, -, hv⟩ := dec_done_consumed h
  rw [hv, patternW_signedW, signedW_truncW]

/-- The pattern of a decoded value is what the consumed groups assemble to, truncated to W bits (R54, R58). -/
theorem patternW_toNat_of_dec_done {w : Width} {bs : List Byte} {v : Int} {n : Nat} (h : dec w bs = .done v n) :
    (patternW w v).toNat = assemble (bs.take n) % 2 ^ widthBits w := by
  obtain ⟨-, -, -, -, -, hv⟩ := dec_done_consumed h
  have hlt : assemble (bs.take n) % 2 ^ widthBits w < 2 ^ 64 :=
    (Nat.mod_lt _ (Nat.two_pow_pos _)).trans_le (Nat.pow_le_pow_right (by decide) (by cases w <;> simp))
  rw [hv, patternW_signedW, truncW_toNat, BitVec.toNat_ofNat, Nat.mod_eq_of_lt hlt, Nat.mod_mod]

/-- What was decoded is the encoding of its value exactly when it was canonical and not over-wide (R56, R105). -/
theorem enc_eq_take_iff {w : Width} {bs : List Byte} {v : Int} {n : Nat} (h : dec w bs = .done v n) :
    enc w v = bs.take n ↔
      canonicalWf w ((bs.take n).map decodeWire) = true ∧ assemble (bs.take n) < 2 ^ widthBits w := by
  have hpat := patternW_toNat_of_dec_done h
  constructor
  · intro heq
    rw [← heq, assemble_enc]
    exact ⟨enc_canonicalWf w v, patternW_lt w v⟩
  · rintro ⟨hcanon, hfit⟩
    obtain ⟨cs, f, htake, hcs, hf, -⟩ := dec_done_consumed h
    rw [Nat.mod_eq_of_lt hfit] at hpat
    rw [htake] at hcanon hpat ⊢
    obtain ⟨hlen, hlast⟩ := (canonicalWf_map_decodeWire_iff hcs hf).1 hcanon
    exact encLoop_of_assemble hcs hf hlast hlen (patternW_lt w v) hpat

/-- Settles O10: forth by the shape of an encoding, back because the encode loop undoes the assembly of a canonical sequence. -/
theorem roundTrip : Obligations.RoundTrip := by
  intro w
  refine ⟨fun v rest hl hu => ?_, fun bs v n h => ⟨enc_canonicalWf w v, ?_, enc_eq_take_iff h⟩⟩
  · rw [dec_enc_append, signedW_patternW hl hu]
  · simpa [signedW_patternW_of_dec_done h] using dec_enc_append w v []

end Sys2Proof.Machine
end

section
/-! PROOFS. How the function `dec` fails: Incomplete on CONT bytes below the bound, so on every encoding that is cut
short (R106), and TooLarge on G(W) of them (R107). -/

namespace Sys2Proof.Machine

/-- The loop at position `pos` fails with TooLarge exactly when the k + 1 bytes that take the position to W or above are there
and are all CONT (R95, R107). -/
theorem decLoop_tooLarge_iff {w : Width} {bs : List Byte} {pos k : Nat} (hlo : pos + 7 * k < widthBits w)
    (hhi : widthBits w ≤ pos + 7 * (k + 1)) (acc : Word) (cur : Nat) :
    decLoop Config.overflowTest w acc pos cur bs = .failed .tooLarge ↔
      k + 1 ≤ bs.length ∧ ∀ b ∈ bs.take (k + 1), contBit b = true := by
  induction bs generalizing acc pos cur k with
  | nil => simp [decLoop]
  | cons b bs ih =>
    cases hb : contBit b with
    | false => simp [decLoop_of_final hb, hb]
    | true =>
      cases k with
      | zero => simp [decLoop_of_overflow hb hhi, hb]
      | succ k =>
        rw [decLoop_of_cont hb (by omega), ih (k := k) (by omega) (by omega)]
        simp [hb]

/-- Nothing but CONT bytes, too few to reach W, leaves the loop without a FINAL byte (R92, R141). -/
theorem decLoop_of_all_cont {w : Width} {cs : List Byte} {pos : Nat} (hcs : ∀ c ∈ cs, contBit c = true)
    (hpos : pos + 7 * cs.length < widthBits w) (acc : Word) (cur : Nat) :
    decLoop Config.overflowTest w acc pos cur cs = .failed .incomplete := by
  induction cs generalizing acc pos cur with
  | nil => rfl
  | cons c cs ih =>
    obtain ⟨hc, hcs'⟩ := List.forall_mem_cons.1 hcs
    rw [List.length_cons] at hpos
    rw [decLoop_of_cont hc (by omega), ih hcs' (by omega)]

/-- A slice of CONT bytes below the bound is Incomplete, the empty slice included. -/
theorem dec_of_all_cont {w : Width} {cs : List Byte} (hcs : ∀ c ∈ cs, contBit c = true) (hlen : cs.length < maxGroups w) :
    dec w cs = .failed .incomplete :=
  decLoop_of_all_cont hcs (by rw [Nat.zero_add]; exact lt_maxGroups_iff.1 hlen) 0 0

theorem dec_tooLarge_iff (w : Width) (bs : List Byte) :
    dec w bs = .failed .tooLarge ↔ maxGroups w ≤ bs.length ∧ ∀ b ∈ bs.take (maxGroups w), contBit b = true := by
  cases w
  · exact decLoop_tooLarge_iff (k := 4) (by decide) (by decide) 0 0
  · exact decLoop_tooLarge_iff (k := 9) (by decide) (by decide) 0 0

/-- Settles O14: an encoding cut short has CONT bytes only. -/
theorem properPrefixIsIncomplete : Obligations.ProperPrefixIsIncomplete := by
  intro w v k hk
  obtain ⟨cs, f, heq, hcs, -, hlen, -, -⟩ := enc_shape w v
  rw [heq, List.length_append, List.length_singleton] at hk
  rw [heq, List.take_append_of_le_length (by omega)]
  exact dec_of_all_cont (fun c hc => hcs c (List.mem_of_mem_take hc)) (by rw [List.length_take]; omega)

end Sys2Proof.Machine
end

section
/-! PROOFS. What an edge makes of DEC: the rows of the table (R104), TooLarge at the G(W)-th byte (R107), the start step (R91),
and a result that stays (R110). -/

namespace Sys2Proof.Machine

/-! ### DEC at an edge, row by row (R104) -/

theorem decAfter_of_start {d : Dec} {p : Pins} (hd : d.state ≠ .reading) (hp : p.decStart = true) (b : Byte) :
    decAfter d p b =
      { state := .reading, w := widthOfBit p.decW64, len := p.decLen, acc := 0, pos := 0, cursor := 0 } := by
  unfold decAfter
  split
  · contradiction
  all_goals rw [if_pos hp]

theorem decAfter_of_free {d : Dec} {p : Pins} (hd : d.state ≠ .reading) (hp : p.decStart = false) (b : Byte) :
    decAfter d p b = d := by
  unfold decAfter
  split
  · contradiction
  all_goals simp [hp]

theorem decAfter_of_exhausted {d : Dec} (hd : d.state = .reading) (hlen : d.len ≤ d.cursor.toNat) (p : Pins) (b : Byte) :
    decAfter d p b = { d with state := .failed .incomplete } := by
  simp [decAfter, hd, (exhausted_iff d).2 hlen]

theorem decAfter_of_final {d : Dec} {b : Byte} (hd : d.state = .reading) (hlen : d.cursor.toNat < d.len)
    (hb : contBit b = false) (p : Pins) :
    decAfter d p b =
      { d with cursor := d.cursor + 1, acc := mergeGroup d.w d.acc (byteGroup b) d.pos.toNat, state := .done } := by
  simp [decAfter, hd, (exhausted_eq_false_iff d).2 hlen, hb]

/-- A CONT byte below the bound: the merge, the position advanced, and the overflow test on it (R93, R95, R96). -/
theorem decAfter_of_cont {d : Dec} {b : Byte} (hd : d.state = .reading) (hlen : d.cursor.toNat < d.len)
    (hb : contBit b = true) (p : Pins) :
    decAfter d p b =
      { d with
        cursor := d.cursor + 1,
        acc := mergeGroup d.w d.acc (byteGroup b) d.pos.toNat,
        pos := d.pos + 7,
        state := if widthBits d.w ≤ (d.pos + 7).toNat then .failed .tooLarge else .reading } := by
  simp [decAfter, hd, (exhausted_eq_false_iff d).2 hlen, hb]

/-- A live edge makes of DEC what its registers, its ports and the byte on the read port say: neither ENC nor HOST's move
touches it (R121, R132). -/
theorem step_dec_of_live {s : State} (hl : s.live) : ∃ t, step s = .next t ∧ t.dec = decAfter s.dec s.pins (fetchByte s) :=
  ⟨_, step_of_live hl, by rw [nextMove_dec, decNext_encNext_dec, decNext_dec]⟩

/-- Settles O33: the rows of the table are the cases of `decAfter`. -/
theorem decoderTransitions : Obligations.DecoderTransitions := by
  intro s hl
  obtain ⟨t, ht, hdec⟩ := step_dec_of_live hl
  refine ⟨t, ht, fun hd hp => ?_, fun hd hp => ?_, fun hd hlen => ?_, fun hd hlen hb => ?_, fun hd hlen hb hpos => ?_,
    fun hd hlen hb hpos => ?_⟩
  · rw [hdec, decAfter_of_start hd hp]
  · rw [hdec, decAfter_of_free hd hp]
  · rw [hdec, decAfter_of_exhausted hd hlen]
  · rw [hdec, decAfter_of_final hd hlen hb]
  · rw [hdec, decAfter_of_cont hd hlen hb, if_neg (Nat.not_le_of_lt hpos)]
    exact ⟨rfl, rfl, rfl⟩
  · rw [hdec, decAfter_of_cont hd hlen hb, if_pos hpos]

/-! ### TooLarge on the block (R107) -/

/-- TooLarge comes out of Reading only below the bound, and with the new position at W or above. -/
theorem decAfter_tooLarge {d : Dec} {p : Pins} {b : Byte} (hd : d.state = .reading)
    (h : (decAfter d p b).state = .failed .tooLarge) : d.cursor.toNat < d.len ∧ widthBits d.w ≤ (d.pos + 7).toNat := by
  by_cases hlen : d.cursor.toNat < d.len
  · refine ⟨hlen, ?_⟩
    by_contra hpos
    cases hb : contBit b with
    | false => rw [decAfter_of_final hd hlen hb] at h; cases h
    | true => rw [decAfter_of_cont hd hlen hb, if_neg hpos] at h; cases h
  · rw [decAfter_of_exhausted hd (Nat.le_of_not_lt hlen)] at h
    cases h

theorem readEnabled_of_reading {d : Dec} (hd : d.state = .reading) (hlen : d.cursor.toNat < d.len) : readEnabled d = true := by
  simp [readEnabled, hd, (exhausted_eq_false_iff d).2 hlen]

theorem readEnabled_of_failed {d : Dec} {k : FailKind} (hd : d.state = .failed k) : readEnabled d = false := by
  simp only [readEnabled, hd]

/-- From a legal state in Reading the position reaches W with the G(W)-th byte (R25 a, R95). -/
theorem cursor_succ_eq_maxGroups {d : Dec} (hinv : d.Inv) (hd : d.state = .reading)
    (hpos : widthBits d.w ≤ (d.pos + 7).toNat) : d.cursor.toNat + 1 = maxGroups d.w := by
  simp only [Dec.Inv, hd] at hinv
  obtain ⟨hcur, hlt, -, -⟩ := hinv
  have hwrap : (d.pos + 7).toNat = d.pos.toNat + 7 := by
    have hw : widthBits d.w ≤ 64 := by cases d.w <;> simp
    rw [BitVec.toNat_add]
    exact Nat.mod_eq_of_lt (by change d.pos.toNat + 7 < 128; omega)
  rw [hwrap] at hpos
  cases hw : d.w <;> simp only [hw, widthBits, maxGroups] at hlt hpos ⊢ <;> omega

theorem step_to_tooLarge {s t : State} (hinv : s.Inv) (h : step s = .next t) (hd : s.dec.state = .reading)
    (ht : t.dec.state = .failed .tooLarge) :
    s.dec.cursor.toNat + 1 = maxGroups s.dec.w ∧ decRdEnPort s = true ∧ decRdEnPort t = false := by
  obtain ⟨hdec, -, -⟩ := hinv
  obtain ⟨-, rfl⟩ | ⟨-, rfl⟩ := step_cases h
  · simp at ht
  · have hread := readEnabled_of_failed ht
    rw [nextMove_dec, decNext_encNext_dec, decNext_dec] at ht
    obtain ⟨hlen, hpos⟩ := decAfter_tooLarge hd ht
    exact ⟨cursor_succ_eq_maxGroups hdec hd hpos, readEnabled_of_reading hd hlen, hread⟩

/-- Settles O12: the function by the number of CONT bytes that take the position to W, the block by the legal position. -/
theorem tooLargeExactlyOnFullContinuation : Obligations.TooLargeExactlyOnFullContinuation :=
  ⟨dec_tooLarge_iff, fun _ _ => step_to_tooLarge⟩

/-! ### Outside Reading (R91, R110) -/

/-- The start step writes DEC and nothing else (R91). -/
theorem decStart_spec {s : State} (h : s.dec.state ≠ .reading) (w : Width) :
    (decStart w s).dec = { state := .reading, w := w, len := s.pins.decLen, acc := 0, pos := 0, cursor := 0 } ∧
      sameEncSide s (decStart w s) ∧ sameHostSide s (decStart w s) :=
  ⟨by rw [decStart_of_free h], by simp [sameEncSide], by simp [sameHostSide]⟩

/-- Settles O19: both commands are the start step at their width. -/
theorem decodeStartClearsDecoder : Obligations.DecodeStartClearsDecoder := fun _ h =>
  ⟨⟨_, rfl, decStart_spec h .w32⟩, ⟨_, rfl, decStart_spec h .w64⟩⟩

/-- What holds of the port levels of the next k + 1 moves, and of ports HOST does not drive, holds of the ports after the first
move and of those of the k moves after it. -/
theorem nextMove_pins_of_take {s : State} {k : Nat} {P : Pins → Prop} (hq : P Pins.quiet)
    (h : ∀ m ∈ s.script.take (k + 1), P m.pins) :
    P (nextMove s).pins ∧ ∀ m ∈ (nextMove s).script.take k, P m.pins := by
  cases hs : s.script with
  | nil => simp [nextMove_nil hs, hs, hq]
  | cons m rest => simpa [nextMove_cons hs, hs] using h

/-- A live edge without a start, outside Reading: DEC stays (R110), and HOST's moves and the reset mark are for `nextMove`. -/
theorem step_of_free {s : State} (hl : s.live) (hd : s.dec.state ≠ .reading) (hp : s.pins.decStart = false) :
    ∃ u, step s = .next (nextMove u) ∧ u.dec = s.dec ∧ u.script = s.script ∧ u.resetSeen = true := by
  refine ⟨_, step_of_live hl, ?_, by simp, by simp [hl.1]⟩
  rw [decNext_encNext_dec, decNext_dec, decAfter_of_free hd hp]

/-- k + 1 edges without reset and without a start keep every register of DEC outside Reading (R110). -/
theorem run_keeps_dec {k : Nat} {s : State} (hl : s.live) (hd : s.dec.state ≠ .reading) (hp : s.pins.decStart = false)
    (hr : noReset (s.script.take k)) (hs : ∀ m ∈ s.script.take k, m.pins.decStart = false) :
    ∃ t : State, Host.Core.run Sys2Proof.core (k + 1) s = .next t ∧ t.dec = s.dec := by
  induction k generalizing s with
  | zero =>
    obtain ⟨u, hstep, hdec, -, -⟩ := step_of_free hl hd hp
    exact ⟨nextMove u, run_succ 0 hstep, by rw [nextMove_dec, hdec]⟩
  | succ k ih =>
    obtain ⟨u, hstep, hdec, hscript, hseen⟩ := step_of_free hl hd hp
    rw [← hscript] at hr hs
    obtain ⟨hrst, hr'⟩ := nextMove_pins_of_take (P := fun p => p.rst = false) rfl hr
    obtain ⟨hstart, hs'⟩ := nextMove_pins_of_take (P := fun p => p.decStart = false) rfl hs
    rw [run_succ _ hstep, ← hdec, ← nextMove_dec u]
    exact ih ⟨by rw [nextMove_resetSeen, hseen], hrst⟩ (by rwa [nextMove_dec, hdec]) hstart hr' hs'

/-- Settles O42: the result and its ports are functions of DEC's registers. -/
theorem resultStaysReadable : Obligations.ResultStaysReadable := by
  intro k s hl hd hp hr hs
  obtain ⟨t, ht, hdec⟩ : ∃ t : State, Host.Core.run Sys2Proof.core k s = .next t ∧ t.dec = s.dec := by
    cases k with
    | zero => exact ⟨s, rfl, rfl⟩
    | succ k => exact run_keeps_dec hl hd hp hr hs
  refine ⟨t, ht, hdec, ?_, ?_, ?_, ?_⟩
  · simp only [State.decResult, hdec]
  · simp only [decValuePort, hdec]
  · simp only [decConsumedPort, hdec]
  · simp only [decErrPort, hdec]

end Sys2Proof.Machine
end

section
/-! PROOFS. The legal states (R25): every edge keeps them, and what they say of a read, of a merge and of a failure. -/

namespace Sys2Proof.Machine

/-! ### A live edge with HOST's move after it -/

/-- DEC after the edge: neither ENC nor HOST's move touches it (R121, R132). -/
theorem edge_dec (s : State) : (nextMove (decNext (encNext s))).dec = decAfter s.dec s.pins (fetchByte s) := by
  rw [nextMove_dec, decNext_encNext_dec, decNext_dec]

/-- ENC after the edge: neither DEC nor HOST's move touches it (R121, R132). -/
theorem edge_enc (s : State) : (nextMove (decNext (encNext s))).enc = encAfter s.enc s.pins := by
  rw [nextMove_enc, decNext_enc, encNext_enc]

/-! ### The invariant of DEC, state by state -/

theorem Dec.inv_of_reading {d : Dec} (hd : d.state = .reading) :
    d.Inv ↔ d.pos.toNat = 7 * d.cursor.toNat ∧ d.pos.toNat < widthBits d.w ∧ d.acc.toNat < 2 ^ d.pos.toNat ∧
      d.cursor.toNat ≤ d.len := by
  simp only [Dec.Inv, hd]

theorem Dec.inv_of_idle {d : Dec} (hd : d.state = .idle) : d.Inv := by simp only [Dec.Inv, hd]

/-- What a start step leaves is legal (R91). -/
theorem Dec.inv_of_start (w : Width) (len : Nat) :
    Dec.Inv { state := .reading, w := w, len := len, acc := 0, pos := 0, cursor := 0 } := by
  cases w <;> simp [Dec.Inv]

theorem one_le_maxGroups (w : Width) : 1 ≤ maxGroups w := by cases w <;> simp

section
variable {d : Dec}

/-- In Reading the cursor is below G(W) (R25 a). -/
theorem cursor_lt_maxGroups (hinv : d.Inv) (hd : d.state = .reading) : d.cursor.toNat < maxGroups d.w := by
  obtain ⟨hpos, hlt, -, -⟩ := (Dec.inv_of_reading hd).1 hinv
  exact lt_maxGroups_iff.2 (hpos ▸ hlt)

/-- The cursor does not wrap (R103 d). -/
theorem cursor_add_one_toNat (hinv : d.Inv) (hd : d.state = .reading) : (d.cursor + 1).toNat = d.cursor.toNat + 1 := by
  have hcur := cursor_lt_maxGroups hinv hd
  have hG : maxGroups d.w ≤ 10 := by cases d.w <;> simp
  rw [BitVec.toNat_add]
  exact Nat.mod_eq_of_lt (by change d.cursor.toNat + 1 < 16; omega)

/-- The position does not wrap (R103 d). -/
theorem pos_add_seven_toNat (hinv : d.Inv) (hd : d.state = .reading) : (d.pos + 7).toNat = d.pos.toNat + 7 := by
  obtain ⟨-, hlt, -, -⟩ := (Dec.inv_of_reading hd).1 hinv
  have hW : widthBits d.w ≤ 64 := by cases d.w <;> simp
  rw [BitVec.toNat_add]
  exact Nat.mod_eq_of_lt (by change d.pos.toNat + 7 < 128; omega)

end

theorem mergeGroup_lt_width (w : Width) (acc : Word) (g : Group) (pos : Nat) :
    (mergeGroup w acc g pos).toNat < 2 ^ widthBits w := truncW_lt w _

/-- A merge at a position fills the seven bits above it and no other (R25 b). -/
theorem mergeGroup_lt {w : Width} {acc : Word} {pos : Nat} (h : acc.toNat < 2 ^ pos) (g : Group) :
    (mergeGroup w acc g pos).toNat < 2 ^ (pos + 7) := by
  rw [mergeGroup_toNat_eq_add h]
  exact (Nat.mod_le _ _).trans_lt (add_group_lt h g)

/-! ### DEC at an edge keeps its invariant, row by row (R104) -/

section
variable {d : Dec} {b : Byte}

/-- A CONT byte that takes the position to W or above (R96). -/
theorem decAfter_of_overflow (hd : d.state = .reading) (hlen : d.cursor.toNat < d.len) (hb : contBit b = true)
    (hov : widthBits d.w ≤ (d.pos + 7).toNat) (p : Pins) :
    decAfter d p b =
      { d with
        cursor := d.cursor + 1,
        acc := mergeGroup d.w d.acc (byteGroup b) d.pos.toNat,
        pos := d.pos + 7,
        state := .failed .tooLarge } := by
  rw [decAfter_of_cont hd hlen hb, if_pos hov]

/-- A CONT byte that leaves the position below W: the unit stays in Reading (R95). -/
theorem decAfter_of_more (hd : d.state = .reading) (hlen : d.cursor.toNat < d.len) (hb : contBit b = true)
    (hov : ¬ widthBits d.w ≤ (d.pos + 7).toNat) (p : Pins) :
    decAfter d p b =
      { d with
        cursor := d.cursor + 1,
        acc := mergeGroup d.w d.acc (byteGroup b) d.pos.toNat,
        pos := d.pos + 7,
        state := .reading } := by
  rw [decAfter_of_cont hd hlen hb, if_neg hov]

theorem decAfter_inv_of_exhausted (hinv : d.Inv) (hd : d.state = .reading) (hlen : d.len ≤ d.cursor.toNat) (p : Pins) :
    (decAfter d p b).Inv := by
  have hcur := cursor_lt_maxGroups hinv hd
  obtain ⟨hpos, hlt, hacc, hle⟩ := (Dec.inv_of_reading hd).1 hinv
  rw [decAfter_of_exhausted hd hlen]
  simp only [Dec.Inv]
  exact ⟨by omega, by omega, hpos, hacc.trans (Nat.pow_lt_pow_right (by decide) hlt)⟩

theorem decAfter_inv_of_final (hinv : d.Inv) (hd : d.state = .reading) (hlen : d.cursor.toNat < d.len)
    (hb : contBit b = false) (p : Pins) : (decAfter d p b).Inv := by
  have hcur := cursor_lt_maxGroups hinv hd
  have hsucc := cursor_add_one_toNat hinv hd
  obtain ⟨hpos, -, -, -⟩ := (Dec.inv_of_reading hd).1 hinv
  rw [decAfter_of_final hd hlen hb]
  simp only [Dec.Inv, hsucc]
  exact ⟨by omega, by omega, by omega, mergeGroup_lt_width .., by omega⟩

theorem decAfter_inv_of_cont (hinv : d.Inv) (hd : d.state = .reading) (hlen : d.cursor.toNat < d.len)
    (hb : contBit b = true) (p : Pins) : (decAfter d p b).Inv := by
  have hsucc := cursor_add_one_toNat hinv hd
  have hseven := pos_add_seven_toNat hinv hd
  obtain ⟨hpos, -, hacc, -⟩ := (Dec.inv_of_reading hd).1 hinv
  by_cases hov : widthBits d.w ≤ (d.pos + 7).toNat
  · have hG := cursor_succ_eq_maxGroups hinv hd hov
    rw [decAfter_of_overflow hd hlen hb hov]
    simp only [Dec.Inv, hsucc, hseven]
    exact ⟨hG, by omega, mergeGroup_lt_width .., hlen⟩
  · rw [decAfter_of_more hd hlen hb hov]
    simp only [Dec.Inv, hsucc, hseven]
    exact ⟨by omega, by omega, mergeGroup_lt hacc _, hlen⟩

theorem decAfter_inv (hinv : d.Inv) (p : Pins) (b : Byte) : (decAfter d p b).Inv := by
  by_cases hd : d.state = .reading
  · by_cases hlen : d.cursor.toNat < d.len
    · cases hb : contBit b with
      | false => exact decAfter_inv_of_final hinv hd hlen hb p
      | true => exact decAfter_inv_of_cont hinv hd hlen hb p
    · exact decAfter_inv_of_exhausted hinv hd (Nat.le_of_not_lt hlen) p
  · cases hp : p.decStart with
    | false => rwa [decAfter_of_free hd hp]
    | true => rw [decAfter_of_start hd hp]; exact Dec.inv_of_start _ _

end

/-! ### ENC at an edge keeps its invariant -/

theorem encInv_of_idle {s : State} (hs : s.enc.state = .idle) : s.EncInv ↔ s.outBase ≤ s.outSeq.length := by
  simp only [State.EncInv, hs, and_true]

theorem encInv_of_emitting {s : State} (hs : s.enc.state = .emitting) :
    s.EncInv ↔ s.outBase ≤ s.outSeq.length ∧ s.opOut.length ≤ maxGroups s.enc.w - 1 ∧
      s.enc.pat.toNat < 2 ^ (widthBits s.enc.w - 7 * s.opOut.length) ∧
      ∀ o ∈ s.opOut, contBit o.byte = true ∧ o.last = false := by
  simp only [State.EncInv, hs]

/-- The invariant of ENC looks at ENC and OUT only. -/
theorem encInv_of_sameEncSide {s t : State} (h : sameEncSide s t) : t.EncInv ↔ s.EncInv := by
  obtain ⟨henc, hseq, hbase⟩ := h
  simp only [State.EncInv, State.opOut, henc, hseq, hbase]

/-- Bytes appended to OUT belong to the running operation. -/
theorem opOut_of_append {s t : State} {os : List OutByte} (hle : s.outBase ≤ s.outSeq.length)
    (hseq : t.outSeq = s.outSeq ++ os) (hbase : t.outBase = s.outBase) : t.opOut = s.opOut ++ os := by
  rw [State.opOut, State.opOut, hseq, hbase, List.drop_append_of_le_length hle]

theorem encInv_encStart {s : State} (hs : s.enc.state = .idle) (w : Width) : (encStart w s).EncInv := by
  rw [encStart_of_idle hs, encInv_of_emitting rfl]
  simp [State.opOut, truncW_lt]

theorem encInv_encEmitFinal {s : State} (hinv : s.EncInv) : (encEmitFinal s).EncInv := by
  obtain ⟨hle, -⟩ := hinv
  rw [encInv_of_idle (by simp)]
  simp only [encEmitFinal_outBase, encEmitFinal_outSeq, List.length_append]
  omega

/-- A continuing emit step uses up seven bits of the pattern and adds one CONT byte to the operation (R25 f, R73). -/
theorem encInv_encEmitCont {s : State} (hinv : s.EncInv) (hs : s.enc.state = .emitting)
    (hm : more s.enc.w s.enc.pat = true) : (encEmitCont s).EncInv := by
  obtain ⟨hle, -, hpat, hall⟩ := (encInv_of_emitting hs).1 hinv
  have hbig : 0x80 ≤ s.enc.pat.toNat := ((more_iff _ _).1 hm).trans (Nat.mod_le _ _)
  have hbits : 7 < widthBits s.enc.w - 7 * s.opOut.length :=
    (Nat.pow_lt_pow_iff_right (a := 2) (by decide)).1 (hbig.trans_lt hpat)
  have hroom : s.opOut.length + 1 < maxGroups s.enc.w := lt_maxGroups_iff.2 (by omega)
  have hop := opOut_of_append hle (encEmitCont_outSeq s) (encEmitCont_outBase s)
  rw [encInv_of_emitting (by simpa using hs), hop]
  simp only [encEmitCont_outBase, encEmitCont_outSeq, encEmitCont_enc, List.length_append, List.length_singleton]
  refine ⟨by omega, by omega, ?_, ?_⟩
  · rw [shiftOut_toNat, Nat.div_lt_iff_lt_mul (by decide), ← Nat.pow_add]
    calc s.enc.pat.toNat % 2 ^ widthBits s.enc.w ≤ s.enc.pat.toNat := Nat.mod_le _ _
      _ < 2 ^ (widthBits s.enc.w - 7 * s.opOut.length) := hpat
      _ = 2 ^ (widthBits s.enc.w - 7 * (s.opOut.length + 1) + 7) := by congr 1; omega
  · intro o ho
    obtain ho | rfl : o ∈ s.opOut ∨ o = _ := by simpa using ho
    · exact hall o ho
    · exact ⟨contBit_pack .., rfl⟩

theorem encInv_encNext {s : State} (hinv : s.EncInv) : (encNext s).EncInv := by
  cases hs : s.enc.state with
  | idle =>
    cases hp : s.pins.encStart with
    | false => simpa [encNext, hs, hp] using hinv
    | true => simpa [encNext, hs, hp] using encInv_encStart hs _
  | emitting =>
    cases hr : s.pins.encOutReady with
    | false => simpa [encNext, hs, hr] using hinv
    | true =>
      rw [encNext_of_ready hs hr]
      cases hm : more s.enc.w s.enc.pat with
      | false => rw [encEmit_of_not_more hm]; exact encInv_encEmitFinal hinv
      | true => rw [encEmit_of_more hm]; exact encInv_encEmitCont hinv hs hm

/-! ### The step -/

/-- Settles O44: each unit keeps its own part at a live edge, a reset edge leaves both Idle, and HOST's stores keep IN canonical. -/
theorem stepKeepsLegal : Obligations.StepKeepsLegal := by
  intro s t ⟨hdec, henc, hmem⟩ h
  obtain ⟨-, rfl⟩ | ⟨-, rfl⟩ := step_cases h
  · refine ⟨Dec.inv_of_idle (by simp), (encInv_of_idle (by simp)).2 ?_, Memory.wf_nextMove hmem⟩
    simpa using henc.1
  · refine ⟨?_, ?_, Memory.wf_nextMove (by simpa using hmem)⟩
    · rw [edge_dec]
      exact decAfter_inv hdec _ _
    · exact (encInv_of_sameEncSide (s := encNext s) ⟨by simp, by simp, by simp⟩).2 (encInv_encNext henc)

/-- Settles O43: after reset both units are Idle and nothing is listed in IN. -/
theorem resetIsLegal : Obligations.ResetIsLegal :=
  ⟨Dec.inv_of_idle rfl, (encInv_of_idle rfl).2 (Nat.le_refl _), Memory.wf_reset⟩

/-! ### Reads, merges and failures of a legal state -/

theorem readEnabled_iff (d : Dec) : readEnabled d = true ↔ d.state = .reading ∧ d.cursor.toNat < d.len := by
  cases hd : d.state <;> simp [readEnabled, hd, exhausted_eq_false_iff]

/-- Settles O45: the address is the cursor, and the position is seven times it (R25 a). -/
theorem readsAndShiftsStayInBounds : Obligations.ReadsAndShiftsStayInBounds := by
  rintro s ⟨hinv, -, -⟩ hread
  obtain ⟨hd, hlen⟩ := (readEnabled_iff s.dec).1 hread
  have hcur := cursor_lt_maxGroups hinv hd
  obtain ⟨hpos, -, -, -⟩ := (Dec.inv_of_reading hd).1 hinv
  refine ⟨if_pos hread, hlen, hcur, by omega, lt_maxGroups_iff.1 (by omega)⟩

theorem xor_shift_eq_add {acc g pos : Nat} (h : acc < 2 ^ pos) : acc ^^^ g <<< pos = acc + g <<< pos := by
  rw [← or_shift_eq_add h]
  apply Nat.eq_of_testBit_eq
  intro i
  rw [Nat.testBit_xor, Nat.testBit_or, Nat.testBit_shiftLeft]
  by_cases hi : pos ≤ i
  · rw [Nat.testBit_lt_two_pow (h.trans_le (Nat.pow_le_pow_right (by decide) hi)), Bool.false_xor, Bool.false_or]
  · simp [hi]

/-- Settles O46: the accumulator has no bit at or above the position (R25 b). -/
theorem mergeIsCarryFree : Obligations.MergeIsCarryFree := by
  rintro s g ⟨hinv, -, -⟩ hread
  obtain ⟨hd, -⟩ := (readEnabled_iff s.dec).1 hread
  obtain ⟨-, -, hacc, -⟩ := (Dec.inv_of_reading hd).1 hinv
  exact ⟨or_shift_eq_add hacc, xor_shift_eq_add hacc, cursor_add_one_toNat hinv hd, pos_add_seven_toNat hinv hd⟩

/-- Incomplete comes out of Reading by the exhaustion row only (R92). -/
theorem decAfter_incomplete {d : Dec} {p : Pins} {b : Byte} (hd : d.state = .reading)
    (h : (decAfter d p b).state = .failed .incomplete) : d.len ≤ d.cursor.toNat := by
  by_contra hlen
  rw [not_le] at hlen
  cases hb : contBit b with
  | false => rw [decAfter_of_final hd hlen hb] at h; cases h
  | true =>
    by_cases hov : widthBits d.w ≤ (d.pos + 7).toNat
    · rw [decAfter_of_overflow hd hlen hb hov] at h; cases h
    · rw [decAfter_of_more hd hlen hb hov] at h; cases h

/-- TooLarge comes out of Reading with a CONT byte only (R95). -/
theorem contBit_of_decAfter_tooLarge {d : Dec} {p : Pins} {b : Byte} (hd : d.state = .reading)
    (h : (decAfter d p b).state = .failed .tooLarge) : contBit b = true := by
  obtain ⟨hlen, -⟩ := decAfter_tooLarge hd h
  cases hb : contBit b with
  | true => rfl
  | false => rw [decAfter_of_final hd hlen hb] at h; cases h

/-- Outside Reading a failure is the one that was there: a start step does not fail (R104). -/
theorem decAfter_failed_of_free {d : Dec} {p : Pins} {b : Byte} {k : FailKind} (hd : d.state ≠ .reading)
    (h : (decAfter d p b).state = .failed k) : d.state = .failed k ∧ decAfter d p b = d := by
  cases hp : p.decStart with
  | false => rw [decAfter_of_free hd hp] at h ⊢; exact ⟨h, rfl⟩
  | true => rw [decAfter_of_start hd hp] at h; cases h

/-- Settles O34: a failure stays, or is the exhaustion row or the overflow row of the table (R104). -/
theorem failuresArise : Obligations.FailuresArise := by
  rintro s t k ⟨hinv, -, -⟩ h ht
  obtain ⟨-, rfl⟩ | ⟨-, rfl⟩ := step_cases h
  · simp at ht
  rw [edge_dec] at ht ⊢
  by_cases hd : s.dec.state = .reading
  · right
    have hcur := cursor_lt_maxGroups hinv hd
    obtain ⟨hpos, -, -, hle⟩ := (Dec.inv_of_reading hd).1 hinv
    cases k with
    | incomplete =>
      left
      have hlen := decAfter_incomplete hd ht
      have hread : ¬ readEnabled s.dec = true := fun hr => Nat.not_lt.2 hlen ((readEnabled_iff _).1 hr).2
      exact ⟨hd, rfl, by omega, by omega, decAfter_of_exhausted hd hlen _ _, Bool.eq_false_of_not_eq_true hread⟩
    | tooLarge =>
      right
      obtain ⟨hlen, hov⟩ := decAfter_tooLarge hd ht
      have hb := contBit_of_decAfter_tooLarge hd ht
      have hG := cursor_succ_eq_maxGroups hinv hd hov
      rw [decAfter_of_overflow hd hlen hb hov]
      simp only [cursor_add_one_toNat hinv hd, pos_add_seven_toNat hinv hd, mergeGroup_toNat]
      exact ⟨hd, trivial, hlen, hG, hb, hG, by omega, trivial, trivial, trivial⟩
  · exact .inl (decAfter_failed_of_free hd ht)

end Sys2Proof.Machine
end

section
/-! PROOFS. The laws of the functions `enc` and `dec` (R34, R39, R54, R60, R77, R80, R81, R97, R106, R111): the length and the bytes of an
encoding as numbers of its pattern, and the results of a decode by the class of its bytes. -/

namespace Sys2Proof.Machine

/-! ### The length of an encoding (R77) -/

theorem patternW_lt_of_length (w : Width) (v : Int) : (patternW w v).toNat < 2 ^ (7 * (enc w v).length) := by
  rw [← assemble_enc]; exact assemble_lt _

theorem one_le_enc_length (w : Width) (v : Int) : 1 ≤ (enc w v).length := by
  obtain ⟨cs, f, heq, -⟩ := enc_shape w v
  simp [heq]

theorem enc_length_le_maxGroups (w : Width) (v : Int) : (enc w v).length ≤ maxGroups w :=
  enc_length_le (one_le_maxGroups w) (patternW_lt_groups w v)

/-- The groups that the length counts are needed: without the last one the pattern does not fit. -/
theorem two_pow_le_patternW {w : Width} {v : Int} {k : Nat} (hk : 1 ≤ k) (hlen : k < (enc w v).length) :
    2 ^ (7 * k) ≤ (patternW w v).toNat := by
  by_contra hlt
  have := enc_length_le hk (Nat.lt_of_not_le hlt)
  omega

theorem enc_length_eq (w : Width) (v : Int) :
    (enc w v).length =
      if (patternW w v).toNat = 0 then 1 else (Nat.log2 (patternW w v).toNat + 1 + 6) / 7 := by
  split
  next h0 => rw [enc_of_pattern_zero h0]; rfl
  next h0 =>
    have hpos := one_le_enc_length w v
    have hupper := (Nat.log2_lt h0).2 (patternW_lt_of_length w v)
    have hlower : 7 * ((enc w v).length - 1) ≤ Nat.log2 (patternW w v).toNat := by
      by_cases h1 : (enc w v).length = 1
      · omega
      · exact (Nat.le_log2 h0).2 (two_pow_le_patternW (by omega) (by omega))
    omega

/-- Settles O4: n bytes hold the pattern and n - 1 do not. -/
theorem encodeLengthLaw : Obligations.EncodeLengthLaw := fun w v =>
  ⟨enc_length_eq w v, patternW_lt_of_length w v, fun _ => enc_length_le, one_le_enc_length w v, enc_length_le_maxGroups w v⟩

/-! ### The bytes of an encoding (R81) -/

/-- Value assembly puts group k at bits 7k + 6 to 7k (R54). -/
theorem byteGroup_getElem_toNat (bs : List Byte) (k : Nat) (h : k < bs.length) :
    (byteGroup bs[k]).toNat = assemble bs / 2 ^ (7 * k) % 2 ^ 7 := by
  induction bs generalizing k with
  | nil => simp at h
  | cons b bs ih =>
    have hb := (byteGroup b).isLt
    cases k with
    | zero => simp only [List.getElem_cons_zero, assemble]; omega
    | succ k =>
      have hdiv : assemble (b :: bs) / 2 ^ 7 = assemble bs := by rw [assemble]; omega
      rw [List.getElem_cons_succ, ih k (Nat.lt_of_succ_lt_succ h), two_pow_seven_mul_succ, Nat.mul_comm (2 ^ (7 * k)),
        ← Nat.div_div_eq_div_mul, hdiv]

theorem contBit_enc_getElem {w : Width} {v : Int} {k : Nat} (h : k < (enc w v).length) :
    contBit (enc w v)[k] = true ↔ k < (enc w v).length - 1 := by
  obtain ⟨cs, f, heq, hcs, hf, -⟩ := enc_shape w v
  simp only [heq, List.length_append, List.length_singleton, Nat.add_sub_cancel] at h ⊢
  by_cases hk : k < cs.length
  · simp [List.getElem_append_left hk, hcs, hk]
  · obtain rfl : k = cs.length := by omega
    simp [hf]

/-- Settles O5: the groups by value assembly, the continuation bits by the shape of an encoding. -/
theorem encodeBytewise : Obligations.EncodeBytewise := fun w v k h =>
  ⟨assemble_enc w v ▸ byteGroup_getElem_toNat (enc w v) k h, contBit_enc_getElem h⟩

/-- The last byte is the top group of the pattern. -/
theorem enc_getLast (w : Width) (v : Int) :
    ∃ b, (enc w v).getLast? = some b ∧ b.toNat = (patternW w v).toNat / 2 ^ (7 * ((enc w v).length - 1)) % 2 ^ 7 := by
  have hlast : (enc w v).length - 1 < (enc w v).length := Nat.sub_lt (one_le_enc_length w v) Nat.one_pos
  refine ⟨(enc w v)[(enc w v).length - 1], by rw [List.getLast?_eq_getElem?, List.getElem?_eq_getElem hlast], ?_⟩
  have hcont := (contBit_enc_getElem hlast).not.2 (Nat.lt_irrefl _)
  rw [contBit_iff] at hcont
  rw [← assemble_enc, ← byteGroup_getElem_toNat _ _ hlast, byteGroup_toNat]
  omega

/-- Settles O7: every encoding is canonical. -/
theorem encodeIsCanonical : Obligations.EncodeIsCanonical := enc_canonicalWf

/-! ### Negative values, and the two widths (R60, R80) -/

/-- A pattern with a bit in the top group takes all G(W) bytes. -/
theorem enc_length_eq_maxGroups {w : Width} {v : Int} (h : 2 ^ (7 * (maxGroups w - 1)) ≤ (patternW w v).toNat) :
    (enc w v).length = maxGroups w := by
  have hle := enc_length_le_maxGroups w v
  have hexp := (Nat.pow_lt_pow_iff_right (a := 2) (by decide)).1 (h.trans_lt (patternW_lt_of_length w v))
  omega

/-- The pattern of a negative value in range has its sign bit set (R55). -/
theorem patternW_of_neg {w : Width} {v : Int} (hl : -(2 ^ (widthBits w - 1)) ≤ v) (hv : v < 0) :
    2 ^ (widthBits w - 1) ≤ (patternW w v).toNat := by
  have h := patternW_toNat w v
  cases w <;> simp only [widthBits] at * <;> omega

theorem enc_length_of_neg {w : Width} {v : Int} (hl : -(2 ^ (widthBits w - 1)) ≤ v) (hv : v < 0) :
    (enc w v).length = maxGroups w := by
  refine enc_length_eq_maxGroups (le_trans (Nat.pow_le_pow_right (by decide) ?_) (patternW_of_neg hl hv))
  cases w <;> decide

/-- Settles O8: the sign bit lies in the top group, and that group is the last byte. -/
theorem negativeTakesFullLength : Obligations.NegativeTakesFullLength := by
  refine ⟨fun v hl hv => ?_, fun v hl hv => ?_⟩
  · have hlen : (enc .w32 v).length = 5 := enc_length_of_neg hl hv
    have hpat := patternW_of_neg (w := .w32) hl hv
    have hlt := patternW_lt .w32 v
    obtain ⟨b, hb, hval⟩ := enc_getLast .w32 v
    simp only [hlen, widthBits] at hval hpat hlt
    exact ⟨hlen, b, hb, by omega, by omega⟩
  · have hlen : (enc .w64 v).length = 10 := enc_length_of_neg hl hv
    have hpat := patternW_of_neg (w := .w64) hl hv
    have hlt := patternW_lt .w64 v
    obtain ⟨b, hb, hval⟩ := enc_getLast .w64 v
    simp only [hlen, widthBits] at hval hpat hlt
    refine ⟨hlen, ?_⟩
    rw [hb]
    congr 1
    apply BitVec.eq_of_toNat_eq
    change b.toNat = 1
    omega

/-- A value that is not negative has one pattern for both widths, and the shorter loop has turns enough for it (R60). -/
theorem enc_w32_eq_enc_w64 {v : Int} (hl : 0 ≤ v) (hu : v < 2 ^ 31) : enc .w32 v = enc .w64 v := by
  have h32 := patternW_toNat .w32 v
  have h64 := patternW_toNat .w64 v
  simp only [widthBits] at h32 h64
  have hlen : (enc .w64 v).length ≤ 5 := enc_length_le (by decide) (by omega)
  by_cases h0 : (patternW .w64 v).toNat = 0
  · rw [enc_of_pattern_zero h0, enc_of_pattern_zero (by omega)]
  · obtain ⟨cs, f, heq, hcs, hf, -, hval, hlast⟩ := enc_shape .w64 v
    rw [heq, List.length_append, List.length_singleton] at hlen
    rw [heq]
    exact encLoop_of_assemble hcs hf (.inr (hlast h0)) hlen (patternW_lt .w32 v) (by omega)

/-- Settles O9: equal patterns below 2^31, and full lengths that differ for a negative value. -/
theorem encodeAcrossWidths : Obligations.EncodeAcrossWidths := by
  refine ⟨fun v => enc_w32_eq_enc_w64, fun v hl hv => ?_⟩
  have h32 : (enc .w32 v).length = 5 := enc_length_of_neg hl hv
  have h64 : (enc .w64 v).length = 10 := enc_length_of_neg (by simp only [widthBits]; omega) hv
  exact ⟨h32, h64, fun heq => by rw [heq, h64] at h32; omega⟩

/-! ### The results of a decode -/

/-- Settles O11: the loop adds each group at its weight. -/
theorem decodeAssemblesGroups : Obligations.DecodeAssemblesGroups := fun _ _ _ rest hcs hf hlen =>
  dec_assembles hcs hf hlen rest

/-- Incomplete leaves no FINAL byte, and no CONT byte that reaches W. -/
theorem decLoop_incomplete {w : Width} {bs : List Byte} {acc : Word} {pos cur : Nat} (hpos : pos < widthBits w)
    (h : decLoop Config.overflowTest w acc pos cur bs = .failed .incomplete) :
    pos + 7 * bs.length < widthBits w ∧ ∀ b ∈ bs, contBit b = true := by
  induction bs generalizing acc pos cur with
  | nil => simpa using hpos
  | cons b bs ih =>
    cases hb : contBit b with
    | false => rw [decLoop_of_final hb] at h; cases h
    | true =>
      by_cases hov : widthBits w ≤ pos + 7
      · rw [decLoop_of_overflow hb hov] at h; cases h
      · rw [decLoop_of_cont hb (by omega)] at h
        obtain ⟨hlen, hbs⟩ := ih (by omega) h
        exact ⟨by rw [List.length_cons]; omega, List.forall_mem_cons.2 ⟨hb, hbs⟩⟩

theorem dec_incomplete_iff (w : Width) (bs : List Byte) :
    dec w bs = .failed .incomplete ↔ bs.length < maxGroups w ∧ ∀ b ∈ bs, contBit b = true := by
  constructor
  · intro h
    obtain ⟨hlen, hbs⟩ := decLoop_incomplete (by cases w <;> simp) h
    exact ⟨lt_maxGroups_iff.2 (by omega), hbs⟩
  · exact fun ⟨hlen, hbs⟩ => dec_of_all_cont hbs hlen

/-- Settles O13: the loop ends without a FINAL byte and without overflow only when the bytes run out. -/
theorem incompleteExactlyOnShortContinuation : Obligations.IncompleteExactlyOnShortContinuation := dec_incomplete_iff

/-- A position that is a multiple of 7 is never W itself (R97). -/
theorem overflows_variants_agree (w : Width) {pos : Nat} (h : 7 ∣ pos) :
    overflows .reaches w pos = overflows .exceeds w pos := by
  obtain ⟨k, rfl⟩ := h
  simp only [overflows, decide_eq_decide]
  cases w <;> simp only [widthBits] <;> omega

theorem decLoop_variants_agree (w : Width) (bs : List Byte) (acc : Word) {pos : Nat} (cur : Nat) (h : 7 ∣ pos) :
    decLoop .reaches w acc pos cur bs = decLoop .exceeds w acc pos cur bs := by
  have h7 : 7 ∣ pos + 7 := Nat.dvd_add_self_right.2 h
  induction bs generalizing acc pos cur with
  | nil => rfl
  | cons b bs ih =>
    simp only [decLoop, overflows_variants_agree w h7]
    rw [ih _ _ h7 (Nat.dvd_add_self_right.2 h7)]

/-- Settles O15: every position the test is made on is a multiple of 7. -/
theorem overflowVariantsAgree : Obligations.OverflowVariantsAgree := by
  refine ⟨fun w bs => decLoop_variants_agree w bs 0 0 (by decide), ?_⟩
  rintro s ⟨hinv, -, -⟩ hd
  obtain ⟨hpos, -, -, -⟩ := (Dec.inv_of_reading hd).1 hinv
  apply overflows_variants_agree
  rw [pos_add_seven_toNat hinv hd, hpos]
  exact Nat.dvd_add_self_right.2 (Nat.dvd_mul_right ..)

/-- Settles O16: both halves are the round trip, the second on what follows the first encoding. -/
theorem consumedCountWalksStream : Obligations.ConsumedCountWalksStream := by
  intro w u v rest hul huu hvl hvu
  obtain ⟨hround, -⟩ := roundTrip w
  refine ⟨(enc w u).length, hround u _ hul huu, ?_⟩
  rw [List.drop_left]
  exact hround v rest hvl hvu

end Sys2Proof.Machine
end

section
/-! PROOFS. What one edge does, row by row: each unit by its state and its ports (R121 to R125, R128), the instruction that runs (R61,
R62), and what a step leaves alone (R10, R40, R129, R132, R160). -/

namespace Sys2Proof.Machine

/-! ### The rows of each unit -/

theorem encNext_of_start {s : State} (he : s.enc.state = .idle) (hp : s.pins.encStart = true) :
    encNext s = encStart (widthOfBit s.pins.encW64) s := by
  simp only [encNext, he, hp, if_true]

theorem encNext_of_waiting {s : State} (he : s.enc.state = .emitting) (hr : s.pins.encOutReady = false) : encNext s = s := by
  simp only [encNext, he, hr, Bool.false_eq_true, if_false]

/-- ENC given nothing to do: Idle without a start, or waiting for HOST. -/
theorem encNext_of_quiet {s : State}
    (h : (s.enc.state = .idle ∧ s.pins.encStart = false) ∨ (s.enc.state = .emitting ∧ s.pins.encOutReady = false)) :
    encNext s = s := by
  obtain ⟨he, hp⟩ | ⟨he, hr⟩ := h
  · simp only [encNext, he, hp, Bool.false_eq_true, if_false]
  · exact encNext_of_waiting he hr

theorem decNext_of_start {s : State} (hd : s.dec.state ≠ .reading) (hp : s.pins.decStart = true) :
    decNext s = decStart (widthOfBit s.pins.decW64) s := by
  unfold decNext
  split
  · contradiction
  all_goals rw [if_pos hp]

theorem decNext_of_free {s : State} (hd : s.dec.state ≠ .reading) (hp : s.pins.decStart = false) : decNext s = s := by
  unfold decNext
  split
  · contradiction
  all_goals simp [hp]

theorem decNext_of_byte {s : State} (hd : s.dec.state = .reading) (hlen : s.dec.cursor.toNat < s.dec.len) :
    decNext s = byteStep (fetchByte s) s := by
  simp [decNext, hd, (exhausted_eq_false_iff s.dec).2 hlen]

/-! ### The instruction that an edge runs (R61, R62, R122, R124, R125) -/

theorem step_runs_byte {s : State} (hl : s.live) (hd : s.dec.state = .reading) (hlen : s.dec.cursor.toNat < s.dec.len)
    (hq : (s.enc.state = .idle ∧ s.pins.encStart = false) ∨ (s.enc.state = .emitting ∧ s.pins.encOutReady = false)) :
    step s = andThen (exec (decodeWire (fetchByte s)) s) (fun t => .next (nextMove t)) := by
  rw [step_of_live hl, encNext_of_quiet hq, decNext_of_byte hd hlen, exec_wire,
    onByte_reading hd ((exhausted_eq_false_iff _).2 hlen)]
  rfl

theorem step_runs_enc {s : State} (hl : s.live) (he : s.enc.state = .idle) (hp : s.pins.encStart = true)
    (hd : s.dec.state ≠ .reading) (hq : s.pins.decStart = false) :
    step s = andThen (exec (decodeCmd (cmdCode .enc s.pins.encW64)) s) (fun t => .next (nextMove t)) := by
  rw [step_of_live hl, encNext_of_start he hp, decNext_of_free (by simpa using hd) (by simpa using hq), exec_cmd_enc]
  rfl

theorem step_runs_dec {s : State} (hl : s.live) (hd : s.dec.state ≠ .reading) (hp : s.pins.decStart = true)
    (hq : (s.enc.state = .idle ∧ s.pins.encStart = false) ∨ (s.enc.state = .emitting ∧ s.pins.encOutReady = false)) :
    step s = andThen (exec (decodeCmd (cmdCode .dec s.pins.decW64)) s) (fun t => .next (nextMove t)) := by
  rw [step_of_live hl, encNext_of_quiet hq, decNext_of_start hd hp, exec_cmd_dec]
  rfl

theorem step_runs_both {s : State} (hl : s.live) (he : s.enc.state = .idle) (hpe : s.pins.encStart = true)
    (hd : s.dec.state ≠ .reading) (hpd : s.pins.decStart = true) :
    step s =
      andThen (exec (decodeCmd (cmdCode .enc s.pins.encW64)) s)
        (fun t => andThen (exec (decodeCmd (cmdCode .dec s.pins.decW64)) t) (fun u => .next (nextMove u))) := by
  rw [step_of_live hl, encNext_of_start he hpe, decNext_of_start (by simpa using hd) (by simpa using hpd), exec_cmd_enc]
  simp only [andThen, exec_cmd_dec, encStart_pins]

/-- Settles O26: each case is a row of the units' edge. -/
theorem stepRunsDecodedInstruction : Obligations.StepRunsDecodedInstruction := fun _ hl =>
  ⟨fun _ => fetchByte_of_supplied, step_runs_byte hl, step_runs_enc hl, step_runs_dec hl, step_runs_both hl⟩

theorem quiesceDec_ne_reading (d : Dec) : (quiesceDec d).state ≠ .reading := by
  cases hd : d.state <;> simp [quiesceDec, hd]

theorem cmdCode_enc_eq {code : BitVec 2} (h : code[1] = false) : cmdCode .enc code[0] = code := by revert code; decide

theorem cmdCode_dec_eq {code : BitVec 2} (h : code[1] = true) : cmdCode .dec code[0] = code := by revert code; decide

theorem encState_cases (e : EncState) : e = .idle ∨ e = .emitting := by cases e <;> simp

/-- A placed code runs alone at the next edge: the placing meets the conditions of its row (log entry 15). -/
theorem step_placeCode (c : Code) (s : State) :
    step (placeCode c s) = andThen (exec (decode c) (placeCode c s)) (fun t => .next (nextMove t)) := by
  cases c with
  | cmd code =>
    cases hu : code[1] with
    | false =>
      have h := step_runs_enc (s := placeCode (.cmd code) s) (by simp [placeCode, hu, State.live]) (by simp [placeCode, hu])
        (by simp [placeCode, hu]) (by simp [placeCode, hu, quiesceDec_ne_reading]) (by simp [placeCode, hu])
      have hcode : cmdCode .enc (placeCode (.cmd code) s).pins.encW64 = code := by
        simpa [placeCode, hu] using cmdCode_enc_eq hu
      rwa [hcode] at h
    | true =>
      have h := step_runs_dec (s := placeCode (.cmd code) s) (by simp [placeCode, hu, State.live])
        (by simp [placeCode, hu, quiesceDec_ne_reading]) (by simp [placeCode, hu]) (by simpa [placeCode, hu] using encState_cases _)
      have hcode : cmdCode .dec (placeCode (.cmd code) s).pins.decW64 = code := by
        simpa [placeCode, hu] using cmdCode_dec_eq hu
      rwa [hcode] at h
  | wire b =>
    have h := step_runs_byte (s := placeCode (.wire b) s) (by simp [placeCode, State.live]) rfl
      (by simp [placeCode]) (by simpa [placeCode] using encState_cases _)
    have hbyte : fetchByte (placeCode (.wire b) s) = b := fetchByte_of_supplied (Memory.read_write_same ..)
    rwa [hbyte] at h

/-- Settles O27: a table word that decodes has a code, which is placed. -/
theorem placedWordRunsNext : Obligations.PlacedWordRunsNext := by
  intro s nbits w i h
  cases hc : tableCode nbits w with
  | none => simp [decodeTableWord, hc] at h
  | some c =>
    obtain rfl : decode c = i := by simpa [decodeTableWord, hc] using h
    have hplace : s.withFetchWord nbits w = placeCode c s := by simp only [State.withFetchWord, hc]
    rw [hplace]
    exact step_placeCode c s

/-- Settles O28: only an edge with `rst` = 0 before the first reset is refused. -/
theorem stepIsTotalAfterReset : Obligations.StepIsTotalAfterReset := by
  refine fun s => ⟨fun h => ?_, step_before_reset⟩
  cases hp : s.pins.rst with
  | true => exact ⟨_, step_of_rst hp⟩
  | false => exact ⟨_, step_of_live ⟨h.resolve_right (by simp [hp]), hp⟩⟩

/-! ### The output stream (R40, R123) -/

theorem encOutBytePort_of_emitting {s : State} (he : s.enc.state = .emitting) :
    encOutBytePort s = pack (more s.enc.w s.enc.pat) (group s.enc.pat) := by
  simp only [encOutBytePort, he]

/-- The flag is the inverse of bit 7 of the byte always (R120). -/
theorem encOutLastPort_eq (s : State) : encOutLastPort s = !(contBit (encOutBytePort s)) := by
  cases he : s.enc.state with
  | idle => simp only [encOutLastPort, encOutBytePort, he]
  | emitting => simp only [encOutLastPort, encOutBytePort, he, contBit_pack, lastFlag]

/-- Settles O31: the presented byte is what a ready HOST gets, and it is a function of ENC's registers, which stay for one that waits. -/
theorem outputHandshake : Obligations.OutputHandshake := by
  intro s hl he
  refine ⟨encOutBytePort s, _, by simp [encOutValidPort, encBusyPort, he], rfl, encOutLastPort_eq s, step_of_live hl,
    fun hr => ?_, fun hr => ?_⟩
  · rw [nextMove_outSeq, decNext_outSeq, encNext_outSeq, encOutBytePort_of_emitting he]
    simp [he, hr, asOut]
  · rw [encNext_of_waiting he hr]
    have hsame : encOutBytePort (nextMove (decNext s)) = encOutBytePort s := by
      rw [encOutBytePort_of_emitting he, encOutBytePort_of_emitting (by simpa using he), nextMove_enc, decNext_enc]
    exact ⟨by simp, by simp, by simp, hsame, by rw [encOutLastPort_eq, encOutLastPort_eq, hsame]⟩

/-- Settles O32: only a ready edge in Emitting appends to OUT. -/
theorem outputIsAppendOnly : Obligations.OutputIsAppendOnly := by
  intro s t h
  obtain ⟨-, rfl⟩ | ⟨⟨-, hrst⟩, rfl⟩ := step_cases h
  · exact .inl (by simp)
  rw [nextMove_outSeq, decNext_outSeq, encNext_outSeq]
  cases he : s.enc.state with
  | idle => exact .inl (by simp)
  | emitting =>
    cases hr : s.pins.encOutReady with
    | false => exact .inl (by simp)
    | true => exact .inr ⟨rfl, rfl, hrst, _, rfl⟩

/-! ### The reset edge (R160) -/

/-- An edge with both starts raised on free units starts both operations (R71, R91). -/
theorem step_starts_both {s : State} (hl : s.live) (he : s.enc.state = .idle) (hd : s.dec.state ≠ .reading)
    (hpe : s.pins.encStart = true) (hpd : s.pins.decStart = true) :
    ∃ t, step s = .next t ∧ t.enc.state = .emitting ∧ t.dec.state = .reading := by
  refine ⟨_, step_of_live hl, ?_, ?_⟩
  · rw [nextMove_enc, decNext_enc, encNext_of_start he hpe, encStart_of_idle he]
  · rw [edge_dec, decAfter_of_start hd hpd]

/-- Settles O35: the edge leaves both units Idle, where both starts are accepted. -/
theorem resetEdgeIdlesBothUnits : Obligations.ResetEdgeIdlesBothUnits := by
  intro s hp
  refine ⟨_, step_of_rst hp, by simp, by simp, by simp [decErr], by simp, by simp, fun hrst hpe hpd => ?_⟩
  exact step_starts_both ⟨by simp, hrst⟩ (by simp) (by simp) hpe hpd

/-! ### What the units do not look at (R10, R128, R129, R132) -/

/-- ENC looks at its own ports. -/
theorem encAfter_congr {e : Enc} {p q : Pins} (hs : p.encStart = q.encStart) (hw : p.encW64 = q.encW64)
    (hv : p.encValue = q.encValue) (hr : p.encOutReady = q.encOutReady) : encAfter e p = encAfter e q := by
  simp only [encAfter, hs, hw, hv, hr]

/-- In Emitting it looks at `enc_out_ready` alone (R128). -/
theorem encAfter_of_emitting_congr {e : Enc} {p q : Pins} (he : e.state = .emitting) (hr : p.encOutReady = q.encOutReady) :
    encAfter e p = encAfter e q := by
  simp only [encAfter, he, hr]

/-- DEC looks at its own ports and, in Reading below the bound, at the byte. -/
theorem decAfter_congr {d : Dec} {p q : Pins} {b c : Byte} (hs : p.decStart = q.decStart) (hw : p.decW64 = q.decW64)
    (hl : p.decLen = q.decLen) (hb : d.state = .reading → d.cursor.toNat < d.len → b = c) :
    decAfter d p b = decAfter d q c := by
  by_cases hd : d.state = .reading
  · by_cases hlen : d.cursor.toNat < d.len
    · simp only [decAfter, hs, hw, hl, hb hd hlen]
    · rw [decAfter_of_exhausted hd (Nat.le_of_not_lt hlen), decAfter_of_exhausted hd (Nat.le_of_not_lt hlen)]
  · unfold decAfter
    split
    · contradiction
    all_goals rw [hs, hw, hl]

/-- In Reading it looks at none of its ports (R128). -/
theorem decAfter_of_reading_congr {d : Dec} (p q : Pins) (b : Byte) (hd : d.state = .reading) :
    decAfter d p b = decAfter d q b := by
  simp only [decAfter, hd]

/-- A step is the same with other ports when they make the same of both units and of OUT. -/
theorem step_congr_pins {s : State} {p : Pins} (hl : s.live) (hrst : p.rst = false)
    (henc : encAfter s.enc p = encAfter s.enc s.pins) (hdec : decAfter s.dec p (fetchByte s) = decAfter s.dec s.pins (fetchByte s))
    (hready : p.encOutReady = s.pins.encOutReady) (hbase : s.enc.state = .idle → p.encStart = s.pins.encStart) :
    step { s with pins := p } = step s := by
  have hl' : ({ s with pins := p } : State).live := ⟨hl.1, hrst⟩
  rw [step_of_live hl, step_of_live hl']
  congr 1
  apply nextMove_congr
  · rw [decNext_enc, decNext_enc, encNext_enc, encNext_enc, ← henc]
  · rw [decNext_encNext_dec, decNext_encNext_dec, decNext_dec, decNext_dec, ← hdec]
    rfl
  · simp
  · simp only [decNext_outSeq, encNext_outSeq, hready]
  · simp only [decNext_outBase, encNext_outBase]
    cases he : s.enc.state with
    | idle => simp only [hbase he]
    | emitting => rfl
  · simp
  · simp
  · simp

/-- Settles O37: a busy unit looks at none of its start ports, and the other unit at none of them ever. -/
theorem busyUnitsIgnoreTheirPorts : Obligations.BusyUnitsIgnoreTheirPorts := by
  intro s start w64 value len hl
  refine ⟨fun he => ?_, fun hd => ?_⟩
  · exact step_congr_pins hl hl.2 (encAfter_of_emitting_congr he rfl) (decAfter_congr rfl rfl rfl fun _ _ => rfl) rfl
      (by simp [he])
  · exact step_congr_pins hl hl.2 (encAfter_congr rfl rfl rfl rfl) (decAfter_of_reading_congr _ _ _ hd) rfl fun _ => rfl

/-- A step of a live state is the units' edge, then HOST's move. -/
theorem eq_of_step_of_live {s t : State} (hl : s.live) (h : step s = .next t) : t = nextMove (decNext (encNext s)) := by
  rw [step_of_live hl] at h
  injection h with h
  exact h.symm

/-- Settles O38: ENC and OUT after an edge are functions of ENC, OUT and ENC's ports. -/
theorem encoderIgnoresDecoder : Obligations.EncoderIgnoresDecoder := by
  intro s s' t t' hl hl' henc hseq hbase hps hpw hpv hpr h h'
  obtain rfl := eq_of_step_of_live hl h
  obtain rfl := eq_of_step_of_live hl' h'
  refine ⟨?_, ?_, ?_⟩
  · rw [edge_enc, edge_enc, ← henc]
    exact encAfter_congr hps.symm hpw.symm hpv.symm hpr.symm
  · simp only [nextMove_outSeq, decNext_outSeq, encNext_outSeq, henc, hseq, hpr]
  · simp only [nextMove_outBase, decNext_outBase, encNext_outBase, henc, hseq, hbase, hps]

/-- Settles O39: DEC after an edge is a function of DEC, its ports and the byte below the bound. -/
theorem decoderIgnoresEncoderAndBeyondBound : Obligations.DecoderIgnoresEncoderAndBeyondBound := by
  intro s s' t t' hl hl' hdec hmem hps hpw hpl h h'
  obtain rfl := eq_of_step_of_live hl h
  obtain rfl := eq_of_step_of_live hl' h'
  rw [edge_dec, edge_dec, ← hdec]
  refine decAfter_congr hps hpw hpl fun _ hlen => ?_
  obtain ⟨b, hb, hb'⟩ := hmem _ hlen
  rw [fetchByte_of_supplied hb, fetchByte_of_supplied (hdec ▸ hb')]

/-- No unit stores to IN or makes a move of HOST: what a step does to both it does by HOST's next move. -/
theorem step_eq_nextMove {s t : State} (h : step s = .next t) :
    ∃ u, t = nextMove u ∧ u.inMem = s.inMem ∧ u.script = s.script := by
  obtain ⟨-, rfl⟩ | ⟨-, rfl⟩ := step_cases h
  · exact ⟨_, rfl, rfl, rfl⟩
  · exact ⟨_, rfl, by simp, by simp⟩

/-- The last of a list of stores to an index is what is read there (R45). -/
theorem Memory.read_writeAll_last {m : Memory} {earlier later : List Host.Cell} {a : Nat} {b : Byte}
    (h : ∀ c ∈ later, c.1 ≠ a) : Memory.read (Memory.writeAll m (earlier ++ (a, b) :: later)) a = some b := by
  rw [Memory.writeAll_append, Memory.writeAll, Memory.read_writeAll_other h, Memory.read_write_same]

/-- Settles O40: IN after a step is IN with the stores of HOST's next move. -/
theorem onlyHostStoresToInput : Obligations.OnlyHostStoresToInput := by
  intro s t h
  obtain ⟨u, rfl, hmem, hscript⟩ := step_eq_nextMove h
  rw [← hscript, ← hmem]
  refine ⟨fun hs a => by rw [nextMove_nil hs], fun m rest hs => ?_⟩
  have hin : (nextMove u).inMem = Memory.writeAll u.inMem m.stores := by rw [nextMove_cons hs]
  rw [hin]
  refine ⟨fun a => Memory.read_writeAll_other, fun earlier a b later heq hlater => ?_⟩
  have hread : Memory.read (Memory.writeAll u.inMem m.stores) a = some b := by
    rw [heq, Memory.read_writeAll_last hlater]
  exact ⟨hread, fun hcur => fetchByte_of_supplied (by rw [hin, hcur, hread])⟩

/-- Settles O41: the units' edge looks at none of HOST's later moves, and `nextMove` writes no register. -/
theorem hostMovesReachNoRegister : Obligations.HostMovesReachNoRegister := by
  intro s t t' ms h h'
  obtain ⟨hp, rfl⟩ | ⟨hl, rfl⟩ := step_cases h
  · obtain ⟨-, rfl⟩ | ⟨⟨-, hp'⟩, -⟩ := step_cases h'
    · simp
    · exact absurd (hp.symm.trans hp') (by simp)
  · obtain rfl := eq_of_step_of_live (s := { s with script := ms }) hl h'
    rw [edge_dec, edge_dec, edge_enc, edge_enc]
    refine ⟨rfl, rfl, ?_, ?_⟩
    · simp only [nextMove_outSeq, decNext_outSeq, encNext_outSeq]
    · simp only [nextMove_outBase, decNext_outBase, encNext_outBase]

end Sys2Proof.Machine
end

section
/-! PROOFS. Whole encode operations (R74, R75, R82, R123, R166): the emit steps of the block are the turns of the loop of R70. A run is
followed from the state `u` that an edge leaves before HOST's next move, so that the moves still to come are `u.script`. -/

namespace Sys2Proof.Machine

theorem one_le_encLoop_length {w : Width} {n : Nat} (hn : 1 ≤ n) (p : Word) : 1 ≤ (encLoop w n p).length := by
  obtain ⟨n, rfl⟩ : ∃ m, n = m + 1 := ⟨n - 1, by omega⟩
  cases hm : more w p with
  | false => simp [encLoop_of_not_more hm]
  | true => simp [encLoop_of_more hm]

/-- The register shift of the block is the shift of the loop on a W-bit pattern (R73, R76 b). -/
theorem shiftOut_of_lt {w : Width} {p : Word} (hp : p.toNat < 2 ^ widthBits w) : shiftOut w p = p >>> 7 := by
  rw [shiftOut, truncW_of_lt hp]

/-- What is still to be emitted: `bs` is what the loop gives from ENC's registers, a W-bit pattern with turns enough. -/
def emitsNext (e : Enc) (bs : List Byte) : Prop :=
  e.state = .emitting ∧ e.pat.toNat < 2 ^ widthBits e.w ∧
    ∃ n, 1 ≤ n ∧ e.pat.toNat < 2 ^ (7 * n) ∧ bs = encLoop e.w n e.pat

theorem one_le_of_emitsNext {e : Enc} {bs : List Byte} (h : emitsNext e bs) : 1 ≤ bs.length := by
  obtain ⟨-, -, n, hn, -, rfl⟩ := h
  exact one_le_encLoop_length hn _

/-- An emit step takes the first of the bytes to be emitted, and leaves ENC Idle when it was the only one (R72, R73). -/
theorem encEmit_takes_first {s : State} {bs : List Byte} (h : emitsNext s.enc bs) :
    ∃ b rest, bs = b :: rest ∧ (encEmit s).outSeq = s.outSeq ++ [asOut b] ∧
      ((rest = [] ∧ (encEmit s).enc.state = .idle) ∨ emitsNext (encEmit s).enc rest) := by
  obtain ⟨he, hw, n, hn, hp, rfl⟩ := h
  obtain ⟨n, rfl⟩ : ∃ m, n = m + 1 := ⟨n - 1, by omega⟩
  cases hm : more s.enc.w s.enc.pat with
  | false =>
    refine ⟨_, [], encLoop_of_not_more hm n, ?_, .inl ⟨rfl, ?_⟩⟩
    · simp [encEmit_of_not_more hm, asOut]
    · simp [encEmit_of_not_more hm]
  | true =>
    obtain ⟨hn', hp'⟩ := groups_left_of_more hm hp
    refine ⟨_, _, encLoop_of_more hm n, ?_, .inr ?_⟩
    · simp [encEmit_of_more hm, asOut]
    · rw [encEmit_of_more hm, encEmitCont_enc, shiftOut_of_lt hw]
      refine ⟨he, lt_of_le_of_lt ?_ hw, n, hn', hp', rfl⟩
      exact (ushiftRight_seven_toNat _).trans_le (Nat.div_le_self _ _)

/-- The next k + 1 moves as the first of them, which drives the ports, and the k after it; without a move there is no ready edge. -/
theorem readyEdges_nextMove {u : State} {k : Nat} (h : 1 ≤ readyEdges (u.script.take (k + 1))) :
    readyEdges (u.script.take (k + 1)) =
      (if (nextMove u).pins.encOutReady then 1 else 0) + readyEdges ((nextMove u).script.take k) := by
  cases hs : u.script with
  | nil => simp [hs, readyEdges] at h
  | cons m rest => simp [nextMove_cons hs, readyEdges, List.countP_cons, Nat.add_comm]

/-- As many ready edges as there are bytes bring all of them to OUT, in order, and ENC back to Idle. -/
theorem run_emits {k : Nat} {u : State} {bs : List Byte} (hbs : emitsNext u.enc bs) (hseen : u.resetSeen = true)
    (hr : noReset (u.script.take k)) (hready : bs.length ≤ readyEdges (u.script.take k)) :
    ∃ (j : Nat) (t : State), j ≤ k ∧ Host.Core.run Sys2Proof.core j (nextMove u) = .next t ∧ t.enc.state = .idle ∧
      t.outSeq = u.outSeq ++ bs.map asOut ∧ t.outBase = u.outBase := by
  have hone := one_le_of_emitsNext hbs
  induction k generalizing u bs with
  | zero => exact absurd (hone.trans hready) (by simp [readyEdges])
  | succ k ih =>
    rw [readyEdges_nextMove (hone.trans hready)] at hready
    obtain ⟨hrst, hr'⟩ := nextMove_pins_of_take (P := fun p => p.rst = false) rfl hr
    have hstep := step_of_live (s := nextMove u) ⟨by rw [nextMove_resetSeen, hseen], hrst⟩
    have he : (nextMove u).enc.state = .emitting := by rw [nextMove_enc]; exact hbs.1
    cases hp : (nextMove u).pins.encOutReady with
    | false =>
      rw [encNext_of_waiting he hp] at hstep
      obtain ⟨j, t, hj, hrun, hidle, hseq, hbase⟩ :=
        ih (u := decNext (nextMove u)) (by simpa using hbs) (by simpa using hseen) (by simpa [noReset] using hr')
          (by simpa [hp] using hready) hone
      exact ⟨j + 1, t, Nat.succ_le_succ hj, by rw [run_succ _ hstep, hrun], hidle, by simpa using hseq, by simpa using hbase⟩
    | true =>
      obtain ⟨b, rest, rfl, hout, hnext⟩ := encEmit_takes_first (s := nextMove u) (by simpa using hbs)
      rw [encNext_of_ready he hp] at hstep
      obtain ⟨rfl, hidle⟩ | hnext := hnext
      · exact ⟨1, _, by omega, run_succ 0 hstep, by simpa using hidle, by simpa using hout, by simp⟩
      · obtain ⟨j, t, hj, hrun, hidle, hseq, hbase⟩ :=
          ih (u := decNext (encEmit (nextMove u))) (by simpa using hnext) (by simpa using hseen)
            (by simpa [noReset] using hr') (by simp [hp] at hready ⊢; omega) (one_le_of_emitsNext hnext)
        exact ⟨j + 1, t, Nat.succ_le_succ hj, by rw [run_succ _ hstep, hrun], hidle, by simpa [hout] using hseq,
          by simpa using hbase⟩

/-- After a start step with the pattern of `v` the bytes to be emitted are those of `enc(W, v)` (R70, R71). -/
theorem emitsNext_encStart {s : State} {w : Width} {v : Int} (he : s.enc.state = .idle)
    (hval : truncW w s.pins.encValue = patternW w v) : emitsNext (encStart w s).enc (enc w v) := by
  rw [encStart_of_idle he]
  refine ⟨rfl, truncW_lt _ _, maxGroups w, one_le_maxGroups w, ?_, by rw [hval]; rfl⟩
  rw [hval]
  exact patternW_lt_groups w v

/-- Settles O50: the start step leaves the bytes of `enc(W, v)` to be emitted, and the ready edges emit them. -/
theorem encodeOperationEmitsEnc : Obligations.EncodeOperationEmitsEnc := by
  intro s w v k hl he hp hw64 hval hr hready
  have hstart : encNext s = encStart w s := by rw [encNext_of_start he hp, hw64, widthOfBit_widthBit]
  have hstep := step_of_live hl
  rw [hstart] at hstep
  obtain ⟨j, t, hj, hrun, hidle, hseq, hbase⟩ :=
    run_emits (u := decNext (encStart w s)) (k := k) (by simpa using emitsNext_encStart he hval) (by simpa using hl.1)
      (by simpa using hr) (by simpa using hready)
  have hout : t.outSeq = s.outSeq ++ (enc w v).map asOut := by simpa using hseq
  refine ⟨j, t, hj, by rw [run_succ _ hstep, hrun], hidle, ?_, hout⟩
  rw [State.opOut, hout, hbase, decNext_outBase, encStart_of_idle he]
  exact List.drop_left

end Sys2Proof.Machine
end

section
/-! PROOFS. Whole decode operations (R90, R98, R99, R108, R109, R125): an edge in Reading is a turn of the loop of R90. A run is followed from
the state `u` that an edge leaves before HOST's next move, so that the moves still to come are `u.script`. -/

namespace Sys2Proof.Machine

/-- The result that DEC's registers hold, if the operation has ended. -/
def Dec.result (d : Dec) : Option DecResult :=
  match d.state with
  | .done => some (.done (signedW d.w d.acc) d.cursor.toNat)
  | .failed k => some (.failed k)
  | .idle | .reading => none

/-- The block shows the result of DEC's registers. -/
theorem decResult_eq (s : State) : s.decResult = s.dec.result := rfl

/-- What the loop of R90 makes of the bytes that are left, from DEC's registers. -/
def Dec.resume (d : Dec) (bs : List Byte) : DecResult :=
  decLoop Config.overflowTest d.w d.acc d.pos.toNat d.cursor.toNat bs

/-- At a start it is the whole function `dec`. -/
theorem resume_of_start (w : Width) (len : Nat) (bs : List Byte) :
    Dec.resume { state := .reading, w := w, len := len, acc := 0, pos := 0, cursor := 0 } bs = dec w bs := rfl

/-- The number of the step, counted from the start step, at which the operation shows its result on a slice of `len` bytes (R109). -/
def endStep (w : Width) (len : Nat) : DecResult → Nat
  | .done _ n => n
  | .failed .tooLarge => maxGroups w
  | .failed .incomplete => len + 1

theorem decSteps_eq_endStep (w : Width) (bs : List Byte) : decSteps w bs = endStep w bs.length (dec w bs) := by
  unfold decSteps
  split <;> next h => rw [h]; rfl

/-! ### One edge in Reading -/

section
variable {d : Dec}

/-- No byte left: the edge ends the operation as the loop ends on no bytes (R92). -/
theorem decAfter_exhausted_result (hd : d.state = .reading) (hlen : d.len ≤ d.cursor.toNat) (p : Pins) (b : Byte) :
    (decAfter d p b).cursor = d.cursor ∧ (decAfter d p b).result = some (d.resume []) := by
  rw [decAfter_of_exhausted hd hlen]
  exact ⟨rfl, rfl⟩

/-- A byte below the bound: the edge consumes it, and ends the operation as the loop ends on it, or leaves the registers from which the
loop goes on (R93 to R96). -/
theorem decAfter_consumes (hinv : d.Inv) (hd : d.state = .reading) (hlen : d.cursor.toNat < d.len) (p : Pins) (b : Byte) :
    (decAfter d p b).cursor.toNat = d.cursor.toNat + 1 ∧ (decAfter d p b).w = d.w ∧ (decAfter d p b).len = d.len ∧
      ((∀ rest, (decAfter d p b).result = some (d.resume (b :: rest)) ∧
          endStep d.w d.len (d.resume (b :: rest)) = d.cursor.toNat + 1) ∨
        ((decAfter d p b).state = .reading ∧ ∀ rest, d.resume (b :: rest) = (decAfter d p b).resume rest)) := by
  have hsucc := cursor_add_one_toNat hinv hd
  have hseven := pos_add_seven_toNat hinv hd
  cases hb : contBit b with
  | false =>
    rw [decAfter_of_final hd hlen hb]
    refine ⟨hsucc, rfl, rfl, .inl fun rest => ?_⟩
    rw [Dec.resume, decLoop_of_final hb, ← hsucc]
    exact ⟨rfl, rfl⟩
  | true =>
    by_cases hov : widthBits d.w ≤ (d.pos + 7).toNat
    · have hG := cursor_succ_eq_maxGroups hinv hd hov
      rw [decAfter_of_overflow hd hlen hb hov]
      refine ⟨hsucc, rfl, rfl, .inl fun rest => ?_⟩
      rw [Dec.resume, decLoop_of_overflow hb (hseven ▸ hov)]
      exact ⟨rfl, hG.symm⟩
    · rw [decAfter_of_more hd hlen hb hov]
      refine ⟨hsucc, rfl, rfl, .inr ⟨rfl, fun rest => ?_⟩⟩
      rw [Dec.resume, Dec.resume, decLoop_of_cont hb (by omega), hsucc, hseven]

/-- The loop ends at a later step than the bytes consumed so far. -/
theorem cursor_lt_endStep (hinv : d.Inv) (hd : d.state = .reading) (bs : List Byte) :
    d.cursor.toNat < endStep d.w d.len (d.resume bs) := by
  obtain ⟨-, hlt, -, hle⟩ := (Dec.inv_of_reading hd).1 hinv
  cases hres : d.resume bs with
  | done v n =>
    obtain ⟨cs, f, rest, -, -, -, -, rfl⟩ := decLoop_done_shape hlt hres
    simp only [endStep]; omega
  | failed k =>
    cases k with
    | incomplete => exact Nat.lt_succ_of_le hle
    | tooLarge => exact cursor_lt_maxGroups hinv hd

end

/-- The edge after HOST's move, in a run without reset. -/
theorem step_nextMove {u : State} (hseen : u.resetSeen = true) (hrst : (nextMove u).pins.rst = false) :
    ∃ v : State, step (nextMove u) = .next (nextMove v) ∧
      v.dec = decAfter u.dec (nextMove u).pins (fetchByte (nextMove u)) ∧ v.script = (nextMove u).script ∧
      v.inMem = (nextMove u).inMem ∧ v.resetSeen = true := by
  refine ⟨_, step_of_live ⟨by rw [nextMove_resetSeen, hseen], hrst⟩, ?_, by simp, by simp, by simpa using hseen⟩
  rw [decNext_encNext_dec, decNext_dec, nextMove_dec]

/-- A start step on a free DEC (R91). -/
theorem step_of_decStart {s : State} {w : Width} (hl : s.live) (hd : s.dec.state ≠ .reading) (hp : s.pins.decStart = true)
    (hw : s.pins.decW64 = widthBit w) :
    ∃ v : State, step s = .next (nextMove v) ∧
      v.dec = { state := .reading, w := w, len := s.pins.decLen, acc := 0, pos := 0, cursor := 0 } ∧ v.script = s.script ∧
      v.inMem = s.inMem ∧ v.resetSeen = true := by
  refine ⟨_, step_of_live hl, ?_, by simp, by simp, by simpa using hl.1⟩
  rw [decNext_encNext_dec, decNext_dec, decAfter_of_start hd hp, hw, widthOfBit_widthBit]

/-! ### A slice that HOST keeps -/

/-- A move that stores nothing leaves IN. -/
theorem nextMove_inMem_of_take {u : State} {k : Nat} (h : slicesKept (u.script.take (k + 1))) :
    (nextMove u).inMem = u.inMem ∧ slicesKept ((nextMove u).script.take k) := by
  cases hs : u.script with
  | nil => simp [nextMove_nil hs, hs, slicesKept]
  | cons m rest =>
    rw [hs, List.take_succ_cons] at h
    obtain ⟨hm, hrest⟩ := List.forall_mem_cons.1 h
    rw [nextMove_cons hs]
    exact ⟨by rw [hm]; rfl, hrest⟩

/-- In Reading, with `rest` the bytes of the slice from the cursor on, the run reaches the result of the loop at its step. -/
theorem run_decodes {rest : List Byte} {k : Nat} {u : State} (hinv : u.dec.Inv) (hd : u.dec.state = .reading)
    (hseen : u.resetSeen = true) (hlen : u.dec.cursor.toNat + rest.length = u.dec.len)
    (hmem : ∀ i, i < rest.length → Memory.read u.inMem (u.dec.cursor.toNat + i) = rest[i]?)
    (hk : u.dec.cursor.toNat + k = endStep u.dec.w u.dec.len (u.dec.resume rest)) (hr : noReset (u.script.take k))
    (hkeep : slicesKept (u.script.take k)) :
    ∃ t : State, Host.Core.run Sys2Proof.core k (nextMove u) = .next t ∧ t.decResult = some (u.dec.resume rest) := by
  have hpos := cursor_lt_endStep hinv hd rest
  induction k generalizing u rest with
  | zero => omega
  | succ k ih =>
    obtain ⟨hrst, hr'⟩ := nextMove_pins_of_take (P := fun p => p.rst = false) rfl hr
    obtain ⟨hin, hkeep'⟩ := nextMove_inMem_of_take hkeep
    obtain ⟨v, hstep, hdec, hscript, hinMem, hseen'⟩ := step_nextMove hseen hrst
    cases rest with
    | nil =>
      obtain ⟨-, hres⟩ := decAfter_exhausted_result hd hlen.ge (nextMove u).pins (fetchByte (nextMove u))
      obtain rfl : k = 0 := by simp only [Dec.resume, decLoop, endStep, List.length_nil] at hk hlen; omega
      exact ⟨_, run_succ 0 hstep, by rw [decResult_eq, nextMove_dec, hdec, hres]⟩
    | cons b rest =>
      have hread : fetchByte (nextMove u) = b := by
        apply fetchByte_of_supplied
        rw [hin, nextMove_dec]
        simpa using hmem 0 (by simp)
      rw [List.length_cons] at hlen hmem
      have hinv' := decAfter_inv hinv (nextMove u).pins b
      obtain ⟨hcur, hw, hl, hend⟩ := decAfter_consumes hinv hd (by omega) (nextMove u).pins b
      rw [hread] at hdec
      rw [← hdec] at hinv' hcur hw hl hend
      obtain hend | ⟨hd', hres⟩ := hend
      · obtain ⟨hres, hstop⟩ := hend rest
        obtain rfl : k = 0 := by omega
        exact ⟨_, run_succ 0 hstep, by rw [decResult_eq, nextMove_dec, hres]⟩
      · rw [hres, ← hw, ← hl] at hk
        rw [hres, run_succ _ hstep]
        refine ih hinv' hd' hseen' (by omega) (fun i hi => ?_) (by omega) (hscript ▸ hr') (hscript ▸ hkeep')
          (cursor_lt_endStep hinv' hd' rest)
        rw [hinMem, hin, hcur, Nat.add_right_comm]
        exact hmem (i + 1) (Nat.succ_lt_succ hi)

/-- A decode takes at least one step and at most G(W) (R109). -/
theorem decSteps_bounds (w : Width) (bs : List Byte) : 1 ≤ decSteps w bs ∧ decSteps w bs ≤ maxGroups w := by
  rw [decSteps_eq_endStep]
  cases hres : dec w bs with
  | done v n =>
    obtain ⟨cs, f, rest, -, -, -, hlen, rfl⟩ := dec_done_shape hres
    exact ⟨Nat.succ_pos _, hlen⟩
  | failed k =>
    cases k with
    | incomplete => exact ⟨Nat.succ_pos _, ((dec_incomplete_iff w bs).1 hres).1⟩
    | tooLarge => exact ⟨one_le_maxGroups w, Nat.le_refl _⟩

/-- Settles O51: the start step leaves registers from which the loop is `dec`, and the run reaches its result. -/
theorem decodeOperationComputesDec : Obligations.DecodeOperationComputesDec := by
  intro s w bs hl hd hp hw hlen hslice hr hkeep
  obtain ⟨hone, hG⟩ := decSteps_bounds w bs
  obtain ⟨v, hstep, hdec, hscript, hinMem, hseen⟩ := step_of_decStart hl hd hp hw
  rw [← hscript] at hr hkeep
  rw [hlen] at hdec
  have hres : v.dec.resume bs = dec w bs := by rw [hdec, resume_of_start]
  obtain ⟨t, hrun, ht⟩ :=
    run_decodes (rest := bs) (u := v) (k := decSteps w bs) (hdec ▸ Dec.inv_of_start ..) (by rw [hdec]) hseen
      (by rw [hdec]; exact Nat.zero_add _) (fun i hi => by rw [hdec, hinMem]; simpa using hslice i hi)
      (by rw [hres, hdec, decSteps_eq_endStep]; exact Nat.zero_add _) hr hkeep
  exact ⟨hone, hG, t, by rw [run_succ _ hstep, hrun], by rw [ht, hres]⟩

/-! ### Bytes as they are on the read port -/

/-- From the registers `d`, with n moves to come, after k edges with the bytes `bs` read and the registers `e` left: the operation has
ended with the result of the loop on `bs`, or it is still in Reading after all n edges, one byte read at each. -/
def followsReads (d : Dec) (n k : Nat) (bs : List Byte) (e : Dec) : Prop :=
  d.cursor.toNat + bs.length ≤ d.len ∧ e.cursor.toNat = d.cursor.toNat + bs.length ∧
    ((1 ≤ k ∧ d.cursor.toNat + k ≤ maxGroups d.w ∧ e.result = some (d.resume bs)) ∨
      (k = n ∧ d.cursor.toNat + n < maxGroups d.w ∧ e.state = .reading ∧ bs.length = n))

theorem readsAlong_succ {s t : State} (h : step s = .next t) (k : Nat) :
    readsAlong (k + 1) s = (if decRdEnPort s then [fetchByte s] else []) ++ readsAlong k t := by
  rw [readsAlong, h]

/-- In Reading, n moves without reset: the run follows the bytes on the read port. -/
theorem run_followsReads {n : Nat} {u : State} (hinv : u.dec.Inv) (hd : u.dec.state = .reading) (hseen : u.resetSeen = true)
    (hr : noReset (u.script.take n)) :
    ∃ (k : Nat) (t : State), k ≤ n ∧ Host.Core.run Sys2Proof.core k (nextMove u) = .next t ∧
      followsReads u.dec n k (readsAlong k (nextMove u)) t.dec := by
  have hcur := cursor_lt_maxGroups hinv hd
  obtain ⟨-, -, -, hle⟩ := (Dec.inv_of_reading hd).1 hinv
  induction n generalizing u with
  | zero => exact ⟨0, _, le_rfl, rfl, hle, by rw [nextMove_dec]; rfl, .inr ⟨rfl, hcur, by rw [nextMove_dec, hd], rfl⟩⟩
  | succ n ih =>
    obtain ⟨hrst, hr'⟩ := nextMove_pins_of_take (P := fun p => p.rst = false) rfl hr
    obtain ⟨v, hstep, hdec, hscript, -, hseen'⟩ := step_nextMove hseen hrst
    have hread : decRdEnPort (nextMove u) = readEnabled u.dec := by rw [decRdEnPort, nextMove_dec]
    by_cases hlen : u.dec.cursor.toNat < u.dec.len
    · have hreads := fun k => readsAlong_succ hstep k
      simp only [hread, readEnabled_of_reading hd hlen, if_true, List.singleton_append] at hreads
      generalize fetchByte (nextMove u) = b at hdec hreads
      have hinv' := decAfter_inv hinv (nextMove u).pins b
      obtain ⟨hcur', hw, hl, hend⟩ := decAfter_consumes hinv hd hlen (nextMove u).pins b
      rw [← hdec] at hinv' hcur' hw hl hend
      obtain hend | ⟨hd', hres⟩ := hend
      · refine ⟨1, _, by omega, run_succ 0 hstep, ?_⟩
        rw [hreads, nextMove_dec]
        exact ⟨hlen, hcur', .inl ⟨le_rfl, hcur, (hend []).1⟩⟩
      · obtain ⟨k, t, hk, hrun, hbound, hcount, hcase⟩ :=
          ih hinv' hd' hseen' (hscript ▸ hr') (cursor_lt_maxGroups hinv' hd') (by omega)
        refine ⟨k + 1, t, by omega, by rw [run_succ _ hstep, hrun], ?_⟩
        rw [hreads]
        rw [hw, ← hres] at hcase
        simp only [followsReads, List.length_cons]
        refine ⟨by omega, by omega, ?_⟩
        obtain ⟨hk1, hG, hdone⟩ | ⟨rfl, hG, hstill, hn⟩ := hcase
        · exact .inl ⟨by omega, by omega, hdone⟩
        · exact .inr ⟨rfl, by omega, hstill, by omega⟩
    · obtain ⟨hsame, hres⟩ :=
        decAfter_exhausted_result hd (Nat.le_of_not_lt hlen) (nextMove u).pins (fetchByte (nextMove u))
      have hno : readEnabled u.dec = false := Bool.eq_false_of_not_eq_true fun h => hlen ((readEnabled_iff _).1 h).2
      refine ⟨1, _, by omega, run_succ 0 hstep, ?_⟩
      rw [readsAlong_succ hstep, hread, hno, nextMove_dec, hdec]
      exact ⟨hle, by rw [hsame]; rfl, .inl ⟨le_rfl, hcur, hres⟩⟩

/-- Settles O52: the start step leaves registers from which the loop is `dec`, and the run follows the bytes read. -/
theorem decodeResultIsOfBytesRead : Obligations.DecodeResultIsOfBytesRead := by
  intro s w n hl hd hp hw hr
  obtain ⟨v, hstep, hdec, hscript, -, hseen⟩ := step_of_decStart hl hd hp hw
  obtain ⟨k, t, hk, hrun, hfollows⟩ :=
    run_followsReads (u := v) (hdec ▸ Dec.inv_of_start ..) (by rw [hdec]) hseen (hscript ▸ hr)
  simp only [followsReads, hdec, resume_of_start] at hfollows
  exact ⟨k, nextMove v, t, hk, hstep, hrun, by simpa [decResult_eq] using hfollows⟩

end Sys2Proof.Machine
end

section
/-! PROOFS. The codes (R51, R61, R62), the instructions one by one with their frames (R71, R91, R93 to R95, R110, R128, R146), and the
ports of the status and of a result (R24, R120, R126, R127). -/

namespace Sys2Proof.Machine

/-! ### Codes -/

theorem encode_decodeWire (b : Byte) : encode (decodeWire b) = .wire b := by
  cases hb : contBit b with
  | false => rw [decodeWire_of_final hb, encode, pack_of_contBit_eq hb]
  | true => rw [decodeWire_of_cont hb, encode, pack_of_contBit_eq hb]

theorem decodeWire_pack (c : Bool) (g : Group) : decodeWire (pack c g) = if c then .cont g else .final g := by
  cases c with
  | false => rw [decodeWire_of_final (contBit_pack ..), byteGroup_pack]; rfl
  | true => rw [decodeWire_of_cont (contBit_pack ..), byteGroup_pack]; rfl

theorem encode_decodeCmd (code : BitVec 2) : encode (decodeCmd code) = .cmd code := by revert code; decide

/-- Settles O1: the four commands by their table, a wire byte by its continuation bit and its group. -/
theorem decodeEncodeRoundTrip : Obligations.DecodeEncodeRoundTrip := by
  refine ⟨fun i _ => ?_, fun c => ?_⟩
  · cases i with
    | enc32 | enc64 | dec32 | dec64 => rfl
    | cont g => exact decodeWire_pack true g
    | final g => exact decodeWire_pack false g
  · cases c with
    | cmd code => exact encode_decodeCmd code
    | wire b => exact encode_decodeWire b

/-- Settles O2: ten codes, each evaluated. -/
theorem writtenWordsDecode : Obligations.WrittenWordsDecode := by
  unfold Obligations.WrittenWordsDecode
  decide

/-- Settles O3: the class is the continuation bit, and the group is what is left of the byte's number. -/
theorem wireClassIsTopBit : Obligations.WireClassIsTopBit := by
  intro b
  have hlt := b.isLt
  have hgroup := byteGroup_toNat b
  refine ⟨fun hb => ?_, fun hb => ?_⟩
  · rw [decodeWire_of_cont ((contBit_iff b).2 hb)]
    exact congrArg _ (BitVec.eq_of_toNat_eq (by rw [BitVec.toNat_ofNat]; omega))
  · rw [decodeWire_of_final (Bool.eq_false_of_not_eq_true ((contBit_iff b).not.2 (Nat.not_le_of_lt hb)))]
    exact congrArg _ (BitVec.eq_of_toNat_eq (by rw [BitVec.toNat_ofNat]; omega))

/-! ### The instructions -/

/-- Settles O17: every arm of `exec` answers a next state. -/
theorem everyInstructionAnswersNext : Obligations.EveryInstructionAnswersNext := by
  intro i s
  cases i with
  | enc32 | enc64 | dec32 | dec64 | cont g | final g => exact ⟨_, rfl⟩

/-- Settles O18: both commands are the start step at their width. -/
theorem encodeStartLoadsPattern : Obligations.EncodeStartLoadsPattern := by
  intro s he
  refine ⟨⟨encStart .w32 s, rfl, ?_⟩, ⟨encStart .w64 s, rfl, ?_⟩⟩
  · rw [encStart_of_idle he]
    exact ⟨rfl, rfl, truncW_toNat .w32 _, rfl, rfl, rfl, by simp [sameHostSide]⟩
  · rw [encStart_of_idle he]
    exact ⟨rfl, rfl, rfl, rfl, rfl, rfl, by simp [sameHostSide]⟩

/-- Settles O23: in every state the start step leaves DEC, OUT and HOST. -/
theorem encodeCommandsFrame : Obligations.EncodeCommandsFrame := by
  have hframe (w : Width) (s : State) :
      (encStart w s).dec = s.dec ∧ (encStart w s).outSeq = s.outSeq ∧ sameHostSide s (encStart w s) := by
    simp [sameHostSide]
  rintro i s t (rfl | rfl) h
  · cases h; exact hframe .w32 s
  · cases h; exact hframe .w64 s

/-- What a wire byte leaves alone: ENC, OUT, HOST, and what DEC latched at the start. -/
def keepsByteFrame (s t : State) : Prop :=
  sameEncSide s t ∧ sameHostSide s t ∧ t.dec.w = s.dec.w ∧ t.dec.len = s.dec.len

theorem keepsByteFrame_refl (s : State) : keepsByteFrame s s := by simp [keepsByteFrame, sameEncSide, sameHostSide]

theorem keepsByteFrame_raise (k : FailKind) (s : State) : keepsByteFrame s (raise k s) := by
  simp [keepsByteFrame, sameEncSide, sameHostSide]

theorem keepsByteFrame_cont (g : Group) (s : State) : keepsByteFrame s (contTail (mergeStep g s)) := by
  simp [keepsByteFrame, sameEncSide, sameHostSide, contTail_dec]

theorem keepsByteFrame_final (g : Group) (s : State) : keepsByteFrame s (finalTail (mergeStep g s)) := by
  simp [keepsByteFrame, sameEncSide, sameHostSide]

/-- What holds of the state, of the exhaustion step and of the consuming step holds of a wire byte's step in every state. -/
theorem onByte_of_cases {P : State → Prop} {f : State → State} {s : State} (hs : P s) (hr : P (raise .incomplete s))
    (hf : P (f s)) : P (onByte f s) := by
  by_cases hd : s.dec.state = .reading
  · cases he : exhausted s.dec with
    | false => rwa [onByte_reading hd he]
    | true => rwa [onByte_exhausted hd he]
  · rwa [onByte_of_ne hd]

theorem decStart_frame (w : Width) (s : State) : sameEncSide s (decStart w s) ∧ sameHostSide s (decStart w s) := by
  simp [sameEncSide, sameHostSide]

/-- Settles O24: the start step and the three things a wire byte can do keep the frame. -/
theorem decoderInstructionsFrame : Obligations.DecoderInstructionsFrame := by
  intro i s t h32 h64 h
  cases i with
  | enc32 => contradiction
  | enc64 => contradiction
  | dec32 =>
    cases h
    obtain ⟨henc, hhost⟩ := decStart_frame .w32 s
    exact ⟨henc, hhost, by simp, by simp⟩
  | dec64 =>
    cases h
    obtain ⟨henc, hhost⟩ := decStart_frame .w64 s
    exact ⟨henc, hhost, by simp, by simp⟩
  | cont g =>
    cases h
    obtain ⟨henc, hhost, hw, hl⟩ :=
      onByte_of_cases (P := keepsByteFrame s) (f := fun t => contTail (mergeStep g t)) (keepsByteFrame_refl s)
        (keepsByteFrame_raise _ s) (keepsByteFrame_cont g s)
    exact ⟨henc, hhost, fun _ _ => ⟨hw, hl⟩, by simp⟩
  | final g =>
    cases h
    obtain ⟨henc, hhost, hw, hl⟩ :=
      onByte_of_cases (P := keepsByteFrame s) (f := fun t => finalTail (mergeStep g t)) (keepsByteFrame_refl s)
        (keepsByteFrame_raise _ s) (keepsByteFrame_final g s)
    exact ⟨henc, hhost, fun _ _ => ⟨hw, hl⟩, fun _ _ => onByte_of_cases (P := fun t => t.dec.pos = s.dec.pos) rfl rfl rfl⟩

/-- Settles O20: below the bound the byte is consumed, by the merge and the advance. -/
theorem contMergesAndAdvances : Obligations.ContMergesAndAdvances := by
  intro g s hd hlen
  refine ⟨_, congrArg Host.Outcome.next (onByte_reading hd ((exhausted_eq_false_iff _).2 hlen)), ?_⟩
  obtain ⟨henc, hhost, hw, hl⟩ := keepsByteFrame_cont g s
  have hdec := contTail_dec (mergeStep g s)
  refine ⟨by rw [hdec]; rfl, by rw [hdec]; exact mergeGroup_toNat .., by rw [hdec]; rfl, fun hov => ?_, fun hov => ?_, hw, hl,
    henc, hhost⟩
  · rw [hdec]; exact if_pos hov
  · rw [hdec]; exact (if_neg (Nat.not_le_of_lt hov)).trans hd

/-- Settles O21: below the bound the byte is consumed, by the merge alone. -/
theorem finalMergesAndEnds : Obligations.FinalMergesAndEnds := by
  intro g s hd hlen
  refine ⟨_, congrArg Host.Outcome.next (onByte_reading hd ((exhausted_eq_false_iff _).2 hlen)), ?_⟩
  obtain ⟨henc, hhost, hw, hl⟩ := keepsByteFrame_final g s
  exact ⟨rfl, mergeGroup_toNat .., rfl, rfl, rfl, hw, hl, henc, hhost⟩

/-- Settles O22: the busy unit, the byte outside Reading, and the byte at the bound. -/
theorem instructionsTurnedAway : Obligations.InstructionsTurnedAway := by
  refine fun s => ⟨fun he => ?_, fun hd => ?_, fun g hd => ?_, fun g hd hlen => ?_⟩
  · exact ⟨congrArg _ (encStart_of_emitting he _), congrArg _ (encStart_of_emitting he _)⟩
  · exact ⟨congrArg _ (decStart_of_reading hd _), congrArg _ (decStart_of_reading hd _)⟩
  · exact ⟨congrArg _ (onByte_of_ne hd), congrArg _ (onByte_of_ne hd)⟩
  · have he := (exhausted_iff s.dec).2 hlen
    exact ⟨congrArg _ (onByte_exhausted hd he), congrArg _ (onByte_exhausted hd he)⟩

/-- Settles O25: the start step writes every register of DEC, from the ports. -/
theorem decodeStartForgetsThePast : Obligations.DecodeStartForgetsThePast := by
  have hstart (w : Width) {s s' : State} (hd : s.dec.state ≠ .reading) (hd' : s'.dec.state ≠ .reading)
      (hp : s.pins = s'.pins) : (decStart w s).dec = (decStart w s').dec := by
    obtain ⟨hdec, -, -⟩ := decStart_spec hd w
    obtain ⟨hdec', -, -⟩ := decStart_spec hd' w
    rw [hdec, hdec', hp]
  rintro s s' t t' hd hd' hp (⟨h, h'⟩ | ⟨h, h'⟩)
  · cases h; cases h'; exact hstart .w32 hd hd' hp
  · cases h; cases h'; exact hstart .w64 hd hd' hp

/-! ### The ports -/

/-- Settles O36: the two Idle states and their codes. -/
theorem resetState : Obligations.ResetState := ⟨rfl, rfl, rfl, rfl, rfl, rfl⟩

/-- The low half of a sign extension is what was extended (R127). -/
theorem setWidth_signExtend_of_le {w v : Nat} (x : BitVec w) (h : w ≤ v) : (x.signExtend v).setWidth w = x := by
  apply BitVec.eq_of_getLsbD_eq
  intro i hi
  simp [BitVec.getElem_signExtend, hi, hi.trans_le h]

/-- Settles O47: sign extension keeps the signed reading, and the low half. -/
theorem valuePortIsSigned : Obligations.ValuePortIsSigned := by
  intro s hd
  refine ⟨portValue s.dec.w s.dec.acc, by simp only [decValuePort, hd], ?_⟩
  cases s.dec.w with
  | w64 => exact ⟨rfl, fun _ => rfl, nofun⟩
  | w32 =>
    have hsigned : ((s.dec.acc.setWidth 32).signExtend 64).toInt = (s.dec.acc.setWidth 32).toInt :=
      BitVec.toInt_signExtend_of_le (by decide)
    have hlow := setWidth_signExtend_of_le (s.dec.acc.setWidth 32) (v := 64) (by decide)
    exact ⟨hsigned, nofun, fun _ => ⟨rfl, by rw [portValue, hlow, hsigned]⟩⟩

theorem decErrPort_eq (s : State) :
    (decErrPort s = 0b00 ↔ ∀ k, s.dec.state ≠ .failed k) ∧ (decErrPort s = 0b01 ↔ s.dec.state = .failed .incomplete) ∧
      (decErrPort s = 0b10 ↔ s.dec.state = .failed .tooLarge) ∧ decErrPort s ≠ 0b11 := by
  rw [decErrPort]
  cases s.dec.state with
  | idle | reading | done => simp [decErrCode, decErr]
  | failed k => cases k <;> simp [decErrCode, decErr]

theorem decStatePort_eq (s : State) :
    (decStatePort s = 0b00 ↔ s.dec.state = .idle) ∧ (decStatePort s = 0b01 ↔ s.dec.state = .reading) ∧
      (decStatePort s = 0b10 ↔ s.dec.state = .done) ∧ (decStatePort s = 0b11 ↔ ∃ k, s.dec.state = .failed k) := by
  rw [decStatePort]
  cases s.dec.state with
  | idle | reading | done | failed k => simp [decStateCode]

theorem encBusyPort_iff (s : State) : encBusyPort s = true ↔ s.enc.state = .emitting := by simp [encBusyPort]

/-- Settles O49: the codes of R24 differ from state to state. -/
theorem statusPortsShowTheCodes : Obligations.StatusPortsShowTheCodes := by
  intro s
  obtain ⟨hidle, hreading, hdone, hfailed⟩ := decStatePort_eq s
  obtain ⟨-, hincomplete, htooLarge, -⟩ := decErrPort_eq s
  exact ⟨encBusyPort_iff s, rfl, hidle, hreading, hdone, hfailed, hincomplete, htooLarge⟩

/-- Outside Done a result port has no value (R126). -/
theorem resultPorts_of_ne_done {s : State} (hd : s.dec.state ≠ .done) :
    decValuePort s = .error .noDecodeResult ∧ decConsumedPort s = .error .noDecodeResult := by
  unfold decValuePort decConsumedPort
  cases h : s.dec.state with
  | done => contradiction
  | idle | reading | failed k => exact ⟨rfl, rfl⟩

theorem encOutBytePort_of_not_valid {s : State} (h : encOutValidPort s = false) :
    encOutBytePort s = Config.freeOutByte s.draws := by
  cases he : s.enc.state with
  | idle => simp only [encOutBytePort, he]
  | emitting => simp [encOutValidPort, encBusyPort, he] at h

/-- Settles O48: each port by the states that give it a value. -/
theorem portsDefinedOnlyWhenStated : Obligations.PortsDefinedOnlyWhenStated := by
  intro s
  obtain ⟨-, -, -, hfailed⟩ := decStatePort_eq s
  obtain ⟨hnone, -, -, hnever⟩ := decErrPort_eq s
  refine ⟨resultPorts_of_ne_done, fun hd => ?_, readEnabled_iff s.dec, fun h => if_pos h, fun h => ?_, encBusyPort_iff s,
    fun h => encOutBytePort_of_emitting ((encBusyPort_iff s).1 h), encOutBytePort_of_not_valid, encOutLastPort_eq s, ?_, hnever⟩
  · simp only [decValuePort, decConsumedPort, hd, and_self]
  · exact if_neg (by rw [decRdEnPort] at h; simp [h])
  · rw [hnone, ne_eq, hfailed, not_exists]

end Sys2Proof.Machine
end
